-- ==== Sys2Proof/Word.lean ====
section
/-! DEFINITION. The word types of the BFLE (00_scope.md rules R10 and R11). Every register and every array word is a 32-bit
pattern; its unsigned reading u32 is `BitVec.toNat` and its two's-complement reading s32 is `BitVec.toInt`. -/

namespace Sys2Proof

/-- A 32-bit register or array word (00 R11). -/
abbrev Word := BitVec 32

/-- One 16-bit character code of a key (40 R91). -/
abbrev CodeUnit := BitVec 16

/-- One byte, of a code unit or of a bus lane (40 R86, 20 R51). -/
abbrev Byte := BitVec 8

end Sys2Proof
end

