-- ==== Sys2Proof/Syntax.lean ====
section
/-! DEFINITION. The ten commands of the BFLE (30_encoding.md rule R74), the seventeen host registers (10_state.md rule R16) and
the moves of the outside world (20_memory.md rule R67, 70_reset_and_hazards.md rule R145). -/

namespace Sys2Proof

/-- The commands, one constructor per row of the opcode map (30 R74). `unit` is the code unit of format U (30 R71). `k` is
the count of format C (30 R72), a number that the assembler checks against 255 (30 R81; `Instr.wf`). -/
inductive Instr where
  | nop
  | keyStart
  | keyUnit (unit : CodeUnit)
  | hash
  | add
  | test
  | popcount
  | configNew (k : Nat)
  | configLoad (k : Nat)
  | commit
deriving DecidableEq, Repr

/-- The host-visible registers, in the order of the register map (10 R16). -/
inductive Reg where
  | id
  | param
  | wmax
  | status
  | cmd
  | cfgCap
  | m
  | k
  | result
  | hashA
  | hashB
  | popcount
  | arrayIdx
  | arrayData
  | keyLen
  | locSel
  | locData
deriving DecidableEq, Repr

/-- What the outside world does to the block: a host register read or write at a byte offset of the 256-byte window
(20 R47, R48, R67), or the platform's reset input (70 R145). A reset carries what the bit array holds after it, which the
spec leaves unspecified (70 R147): as (word index, word) pairs, any list. -/
inductive HostEvent where
  | read (offset : BitVec 8)
  | write (offset : BitVec 8) (value : Word)
  | reset (contents : List (Nat × Word))
deriving DecidableEq, Repr

end Sys2Proof
end

