-- ==== Sys2Proof/WellFormed.lean ====
section
/-! DEFINITION. Which commands can be written down: the assembler's operand checks (30_encoding.md rule R81). A code unit is
16 bits by its type; a probe count K must fit its 8-bit field. -/

namespace Sys2Proof

/-- The assembler "refuses a UNIT above 0xFFFF and a K above 255" (30 R81). It does not compare K with K_MAX: that is the
block's check (44 R121). -/
def Instr.wf : Instr → Bool
  | .nop => true
  | .keyStart => true
  | .keyUnit _ => true
  | .hash => true
  | .add => true
  | .test => true
  | .popcount => true
  | .configNew k => decide (k ≤ 255)
  | .configLoad k => decide (k ≤ 255)
  | .commit => true

end Sys2Proof
end

