-- ==== Sys2Proof/Decode.lean ====
section
/-! DEFINITION. Decoding and encoding of command words (30_encoding.md rules R68 to R79, R81). Decoding is total on every 32-bit word: it
gives one command or rejects the word under the name of the error the block records for it. -/

namespace Sys2Proof

/-- Why a word is no command: a reserved opcode (30 R75), or a nonzero reserved bit under an assigned opcode (30 R76). -/
inductive DecodeError where
  | illegalOp
  | rsvdField
deriving DecidableEq, Repr

/-- The opcode field OP, bits 31 to 28 (30 R69). -/
def opField (v : Word) : Nat := (v.extractLsb' 28 4).toNat

/-- The reserved-bit mask of an opcode's format: U for 0x2 (30 R71), C for 0x7 and 0x8 (30 R72), N otherwise (30 R70, R79). -/
def rsvdMask (op : Nat) : Word :=
  if op = 2 then 0x0FFF0000#32
  else if op = 7 ∨ op = 8 then 0x0FFFFF00#32
  else 0x0FFFFFFF#32

/-- UNIT = v[15:0] (30 R73). -/
def unitField (v : Word) : CodeUnit := v.extractLsb' 0 16

/-- K = zext_8(v[7:0]), an unsigned count (30 R73). -/
def kField (v : Word) : Nat := (v.extractLsb' 0 8).toNat

/-- The command of an assigned opcode, with its operands taken from the word (30 R74, R79); nothing for 0xA to 0xF. -/
def commandOf (op : Nat) (v : Word) : Option Instr :=
  match op with
  | 0 => some .nop
  | 1 => some .keyStart
  | 2 => some (.keyUnit (unitField v))
  | 3 => some .hash
  | 4 => some .add
  | 5 => some .test
  | 6 => some .popcount
  | 7 => some (.configNew (kField v))
  | 8 => some (.configLoad (kField v))
  | 9 => some .commit
  | _ => none

/-- Decode and dispatch of a CMD write, in the order of 30 R79: the opcode first, then the reserved bits. -/
def decode (v : Word) : Except DecodeError Instr :=
  match commandOf (opField v) v with
  | none => .error .illegalOp
  | some i => if v &&& rsvdMask (opField v) = 0#32 then .ok i else .error .rsvdField

/-- The command word of each statement (30 R81). -/
def encode : Instr → Word
  | .nop => 0x00000000#32
  | .keyStart => 0x10000000#32
  | .keyUnit u => 0x20000000#32 ||| u.setWidth 32
  | .hash => 0x30000000#32
  | .add => 0x40000000#32
  | .test => 0x50000000#32
  | .popcount => 0x60000000#32
  | .configNew k => 0x70000000#32 ||| BitVec.ofNat 32 k
  | .configLoad k => 0x80000000#32 ||| BitVec.ofNat 32 k
  | .commit => 0x90000000#32

/-- One row of the opcode map: a word is the row's command when (v AND mask) = match (30 R74). -/
structure OpcodeRow where
  mnemonic : String
  mask : Word
  pattern : Word
deriving DecidableEq, Repr

/-- The opcode map as the spec prints it (30 R74). The decoder above is written from 30 R79, not from this list; an obligation
says that the two agree. -/
def opcodeMap : List OpcodeRow :=
  [ ⟨"NOP", 0xFFFFFFFF#32, 0x00000000#32⟩,
    ⟨"KEY_START", 0xFFFFFFFF#32, 0x10000000#32⟩,
    ⟨"KEY_UNIT", 0xFFFF0000#32, 0x20000000#32⟩,
    ⟨"HASH", 0xFFFFFFFF#32, 0x30000000#32⟩,
    ⟨"ADD", 0xFFFFFFFF#32, 0x40000000#32⟩,
    ⟨"TEST", 0xFFFFFFFF#32, 0x50000000#32⟩,
    ⟨"POPCOUNT", 0xFFFFFFFF#32, 0x60000000#32⟩,
    ⟨"CONFIG_NEW", 0xFFFFFF00#32, 0x70000000#32⟩,
    ⟨"CONFIG_LOAD", 0xFFFFFF00#32, 0x80000000#32⟩,
    ⟨"COMMIT", 0xFFFFFFFF#32, 0x90000000#32⟩ ]

/-- The row's mnemonic of each command (30 R74, R81). -/
def Instr.mnemonic : Instr → String
  | .nop => "NOP"
  | .keyStart => "KEY_START"
  | .keyUnit _ => "KEY_UNIT"
  | .hash => "HASH"
  | .add => "ADD"
  | .test => "TEST"
  | .popcount => "POPCOUNT"
  | .configNew _ => "CONFIG_NEW"
  | .configLoad _ => "CONFIG_LOAD"
  | .commit => "COMMIT"

/-- The table's word as the CMD register receives it: `nbits` bits, the bits above them 0, nothing wider than the one 32-bit
word of a command (30 R68). -/
def tableWord (nbits w : Nat) : Option Word :=
  if w % 2 ^ nbits < 4294967296 then some (BitVec.ofNat 32 (w % 2 ^ nbits)) else none

/-- What the decoder reads from an opcode-table word. -/
def decodeTableWord (nbits w : Nat) : Option Instr :=
  match tableWord nbits w with
  | none => none
  | some v =>
    match decode v with
    | .ok i => some i
    | .error _ => none

end Sys2Proof
end

