-- ==== Sys2Proof/Config.lean ====
section
/-! DEFINITION. The OPEN parameters of the spec (92_eei_decisions.md, "OPEN parameters"), as plain data that the model takes as an
argument: State carries one `Params` and no step changes it, so a statement about every state is a statement about every
parameter choice (DESIGN CHOICE, log 3). REG_BASE is used by no rule and has no place here (20_memory.md rule R47). -/

namespace Sys2Proof.Config

/-- UNIT_BYTE_ORDER: which byte of a code unit is folded first (40 R87, 92 D4). -/
inductive UnitOrder where
  | highFirst
  | lowFirst
deriving DecidableEq, Repr

/-- Whether a step of the avalanche mix combines by addition mod 2^32 or by exclusive or: "a sequence of additive/XOR
shifts" (40 R88). -/
inductive MixOp where
  | additive
  | xor
deriving DecidableEq, Repr

/-- Which way a mix step shifts, and what a right shift fills with; the source fixes neither (40 R88). -/
inductive ShiftDir where
  | left
  | rightZeroFill
  | rightSignFill
deriving DecidableEq, Repr

/-- What the source leaves open about one step of the mix (40 R88). -/
structure MixStep where
  op : MixOp
  dir : ShiftDir
deriving DecidableEq, Repr

/-- FNV_MIX: the five open choices, in the order of the fixed shift amounts 13, 7, 3, 17, 5 (40 R88, 92 D5). -/
structure MixPlan where
  by13 : MixStep
  by7 : MixStep
  by3 : MixStep
  by17 : MixStep
  by5 : MixStep
deriving DecidableEq, Repr

/-- The mix the spec gives: additive steps shift left, XOR steps shift right with zeros (40 R88; PRESUMED by the spec, log 5). -/
def MixPlan.reference : MixPlan :=
  { by13 := ⟨.additive, .left⟩
    by7 := ⟨.xor, .rightZeroFill⟩
    by3 := ⟨.additive, .left⟩
    by17 := ⟨.xor, .rightZeroFill⟩
    by5 := ⟨.additive, .left⟩ }

/-- The parameters of one BFLE. `kMax` is K_MAX, the number of probe lanes (00 R6); `wMax` is W_MAX, the number of array words
(00 R7). -/
structure Params where
  kMax : Nat
  wMax : Nat
  unitOrder : UnitOrder
  mixPlan : MixPlan
deriving DecidableEq, Repr

/-- The ranges the spec allows: 1 <= K_MAX <= 255 and 1 <= W_MAX <= 2^26 (00 R6, R7). -/
def Params.valid (p : Params) : Bool :=
  decide (1 ≤ p.kMax) && decide (p.kMax ≤ 255) && decide (1 ≤ p.wMax) && decide (p.wMax ≤ 67108864)

/-- The reference configuration (00 R6, R7; 95_test_vectors.md, "Conventions"). -/
def Params.reference : Params :=
  { kMax := 16, wMax := 32768, unitOrder := .highFirst, mixPlan := .reference }

end Sys2Proof.Config
end

