-- ==== Sys2Proof/Machine/State.lean ====
section
/-! DEFINITION. The architectural state of the BFLE as plain data (10_state.md rule R15), the reasons a step can stop, and the state
after reset (70_reset_and_hazards.md rules R145 to R147). -/

namespace Sys2Proof.Machine

/-- st.mode (10 R21): no filter, a filter being loaded, a filter in use. The value 3 never occurs. -/
inductive OpMode where
  | off
  | load
  | ready
deriving DecidableEq, Repr

/-- The error codes 0 to 7 of STATUS.ERRCODE (60 R130). Codes 8 to 15 are never recorded. -/
inductive ErrCode where
  | none
  | illegalOp
  | rsvdField
  | badMode
  | badConfig
  | indexRange
  | readOnly
  | access
deriving DecidableEq, Repr

/-- Why a step stops for good. The BFLE itself never does (60 R129, 70 R160). -/
inductive Fault where
  /-- Raised by HASH, ADD, TEST, POPCOUNT and by an ARRAY_DATA access when the state claims a configured filter whose m or k
  lies outside 10 R22 (m not a positive multiple of 32, m > 32 * W_MAX, or k > K_MAX). The spec has no such state, and its
  source calls the remainder by m = 0 undefined; no state that meets the invariant raises it. Safe (log 9). -/
  | brokenConfiguration
deriving DecidableEq, Repr

/-- Why an instruction gets no meaning. -/
inductive Refusal where
  /-- Raised by `exec` for an instruction that has no meaning in the model yet. No arm raises it now. Safe. -/
  | notModelled (mnemonic : String)
deriving DecidableEq, Repr

/-- The bit array st.buckets: (word index, word) pairs in one canonical form, `Memory.wf`; an unlisted word reads 0
(10 R23, 20 R52; logs 6 and 8). -/
abbrev Memory := List (Nat × Word)

/-- The state of the block (10 R15), under the spec's names, and the model's own last three groups: the parameters (log 3), the
moves of the outside world that are not accepted yet (log 1) and the values that host reads have returned (log 2). -/
structure State where
  /-- st.mode (10 R21). -/
  mode : OpMode
  /-- st.m: the configured bit capacity, or 0 (10 R22). -/
  m : Word
  /-- st.k: the number of probes (10 R22). -/
  k : BitVec 8
  /-- st.buckets: the bit array (10 R23). -/
  buckets : Memory
  /-- st.HA: the accumulator of hash lane A (10 R41). -/
  laneA : Word
  /-- st.HB: the accumulator of hash lane B (10 R41). -/
  laneB : Word
  /-- st.keylen (10 R38). -/
  keyLen : Word
  /-- st.hash_a (10 R34). -/
  hashA : Word
  /-- st.hash_b (10 R34). -/
  hashB : Word
  /-- st.loc[0 .. K_MAX-1]: the locations of the probe lanes (10 R42). -/
  loc : List Nat
  /-- st.locv (10 R42). -/
  locv : Bool
  /-- st.hit (10 R33). -/
  hit : Bool
  /-- st.pop (10 R35). -/
  pop : Word
  /-- st.aidx (10 R36). -/
  aidx : Word
  /-- st.locsel (10 R39). -/
  locSel : BitVec 8
  /-- st.cap (10 R30). -/
  cap : Word
  /-- st.err (10 R43). -/
  err : Bool
  /-- st.err_multi (10 R43). -/
  errMulti : Bool
  /-- st.errcode (10 R43). -/
  errCode : ErrCode
  /-- The model's own: K_MAX, W_MAX, UNIT_BYTE_ORDER and FNV_MIX of this block. -/
  params : Config.Params
  /-- The model's own: the accesses and resets still to come, oldest first (20 R61, R62). -/
  inbox : List HostEvent
  /-- The model's own: the values host reads have returned, oldest first (20 R48). -/
  outbox : List Word
deriving DecidableEq, Repr

/-- The state right after reset of a block with parameters `p` whose bit array happens to hold `contents`
(70 R146, R147; 10 R16). The lanes hold init(SEED_A) and init(SEED_B). -/
def State.resetWith (p : Config.Params) (contents : Memory) : State :=
  { mode := .off
    m := 0#32
    k := 0#8
    buckets := contents
    laneA := 0x811C9DC5#32
    laneB := 0xDCE8AC8C#32
    keyLen := 0#32
    hashA := 0#32
    hashB := 0#32
    loc := List.replicate p.kMax 0
    locv := false
    hit := false
    pop := 0#32
    aidx := 0#32
    locSel := 0#8
    cap := 0#32
    err := false
    errMulti := false
    errCode := .none
    params := p
    inbox := []
    outbox := [] }

/-- The machine right after reset, in the reference configuration and with nothing listed in the bit array (70 R146, R147;
logs 3 and 6). -/
def State.reset : State := State.resetWith Config.Params.reference []

end Sys2Proof.Machine
end

