-- ==== Sys2Proof/Machine/Ops.lean ====
section
/-! DEFINITION. The named operations over the state: the bit array's words, the value a host read returns, recording an error (the only
"exception entry" the BFLE has) and acknowledging it (its only return). -/

namespace Sys2Proof.Machine

/-- What every meaning answers. -/
abbrev Result := Host.Outcome State Fault Refusal

/-! ### The words of the bit array -/

/-- The canonical form: word indices strictly rise, and no listed word is the 0 that an unlisted word reads as. -/
abbrev Memory.wf (b : Memory) : Prop := b.Pairwise (fun x y => x.1 < y.1) ∧ ∀ c ∈ b, c.2 ≠ 0#32

/-- MemRead(w, 4): the word with index w (20 R53); an unlisted word reads 0 (log 6). -/
def Memory.read : Memory → Nat → Word
  | [], _ => 0#32
  | (i, x) :: rest, w => if i = w then x else Memory.read rest w

/-- MemWrite(w, 4, v): word w becomes v, in canonical form (20 R53). -/
def Memory.write : Memory → Nat → Word → Memory
  | [], w, v => if v = 0#32 then [] else [(w, v)]
  | (i, x) :: rest, w, v =>
    if w < i then (if v = 0#32 then (i, x) :: rest else (w, v) :: (i, x) :: rest)
    else if w = i then (if v = 0#32 then rest else (w, v) :: rest)
    else (i, x) :: Memory.write rest w v

/-- The clearing loop of the CONFIG commands: words 0 to n-1 become 0, the others are kept (44 R121, 20 R53). -/
def Memory.clearBelow (b : Memory) (n : Nat) : Memory := b.filter fun c => decide (n ≤ c.1)

/-- A bit array of `wMax` words holding any given contents: what reset may leave (70 R147). Pairs that name a word the
storage does not have are dropped. -/
def Memory.ofContents (wMax : Nat) (cs : List (Nat × Word)) : Memory :=
  cs.foldl (fun b c => if c.1 < wMax then Memory.write b c.1 c.2 else b) []

/-! ### Host reads -/

/-- A host read returns the value v (20 R48). -/
def State.reply (v : Word) (s : State) : State := { s with outbox := s.outbox ++ [v] }

/-! ### Errors -/

/-- raise Error(code): the first error sets ERR and ERRCODE, a later one only ERR_MULTI, and nothing else changes (60 R131,
R135). -/
def State.raiseError (code : ErrCode) (s : State) : State :=
  { s with
    err := true
    errCode := if s.err then s.errCode else code
    errMulti := s.err || s.errMulti }

/-- A refused read: the error is recorded and the read returns 0 (60 R129, R131). -/
def State.refuseRead (code : ErrCode) (s : State) : State := (s.raiseError code).reply 0#32

/-- The host's acknowledgement, a STATUS write of v: bit 8 clears ERR and ERRCODE, bit 9 clears ERR_MULTI, every other bit is
ignored (10 R28, 60 R136). -/
def State.ackErrors (v : Word) (s : State) : State :=
  { s with
    err := if v.getLsbD 8 then false else s.err
    errCode := if v.getLsbD 8 then .none else s.errCode
    errMulti := if v.getLsbD 9 then false else s.errMulti }

/-! ### Reset -/

/-- The platform's reset input: every state element takes its reset value, the bit array holds whatever it holds (70 R145 to
R147). What the outside world has still to send and has already received is not the block's and stays (log 7). -/
def State.applyReset (contents : List (Nat × Word)) (s : State) : State :=
  { State.resetWith s.params (Memory.ofContents s.params.wMax contents) with inbox := s.inbox, outbox := s.outbox }

/-! ### Byte lanes of a platform bus -/

/-- Byte lane j of a value carries bits [8j+7:8j] (20 R51). No rule of the block uses it. -/
def busLane (v : Word) (j : Nat) : Byte := v.extractLsb' (8 * j) 8

/-- The value that four byte lanes carry, lane 0 first (20 R51). -/
def ofBusLanes (l0 l1 l2 l3 : Byte) : Word := l3 ++ l2 ++ l1 ++ l0

end Sys2Proof.Machine
end

