-- ==== Sys2Proof/Machine/Operands.lean ====
section
/-! DEFINITION. What commands and accesses take their operands from: the two bytes of a code unit, the configuration, and the word and
mask of a bit index. -/

namespace Sys2Proof.Machine

/-- The high byte UNIT[15:8] of a code unit (30 R73). -/
def unitHigh (c : CodeUnit) : Byte := c.extractLsb' 8 8

/-- The low byte UNIT[7:0] of a code unit (30 R73). -/
def unitLow (c : CodeUnit) : Byte := c.extractLsb' 0 8

/-- The mode is configured when it is LOAD or READY (10 R21). -/
def OpMode.configured : OpMode → Bool
  | .off => false
  | .load => true
  | .ready => true

/-- nw = st.m / 32, the number of visible words (00 R8, 10 R22). -/
def State.nw (s : State) : Nat := s.m.toNat / 32

/-- The locations of the lanes in use, st.loc[0 .. st.k-1] (43 R112). -/
def State.probes (s : State) : List Nat := s.loc.take s.k.toNat

/-- word(i) = floor(i / 32) (42 R104). -/
def bitWord (i : Nat) : Nat := i / 32

/-- mask(i) = 1 << (i mod 32) (42 R104). -/
def bitMask (i : Nat) : Word := 1#32 <<< (i % 32)

/-- m' = 32 * ceil(cap / 32), the nearest multiple of 32 that is at least the requested capacity (44 R121). -/
def roundedCapacity (cap : Word) : Nat := 32 * ((cap.toNat + 31) / 32)

/-- configCheck(K) finds no fault with CFG_CAP and K (44 R121). -/
def State.configAccepts (k : Nat) (s : State) : Bool :=
  !(decide (s.cap = 0#32) || decide (32 * s.params.wMax < s.cap.toNat) || decide (s.params.kMax < k))

/-- The ranges 10 R22 gives m and k in a configured mode. -/
def State.geometryOk (s : State) : Bool :=
  decide (s.m.toNat % 32 = 0) && decide (32 ≤ s.m.toNat) && decide (s.m.toNat ≤ 32 * s.params.wMax) &&
    decide (s.k.toNat ≤ s.params.kMax)

/-- An operation over the configured filter goes on to t unless the state claims a filter the spec says cannot be (log 9). -/
def State.onFilter (s t : State) : Result := if s.geometryOk then .next t else .fault .brokenConfiguration

end Sys2Proof.Machine
end

