-- ==== Sys2Proof/Machine/Configure.lean ====
section
/-! DEFINITION. NOP, the configuration commands and COMMIT (44_config_serialization.md). -/

namespace Sys2Proof.Machine

/-- NOP does nothing (44 R120). -/
def execNop (s : State) : Result := .next s

/-- configApply(K) and the new mode: the size, the cleared visible words and the cleared results (44 R121). The words at and
above the new nw keep what they held: they are invisible (10 R23). -/
def State.configApply (k : Nat) (newMode : OpMode) (s : State) : State :=
  { s with
    mode := newMode
    m := BitVec.ofNat 32 (roundedCapacity s.cap)
    k := BitVec.ofNat 8 k
    buckets := s.buckets.clearBelow (roundedCapacity s.cap / 32)
    locv := false
    hit := false
    pop := 0#32
    aidx := 0#32 }

/-- The shared shape of the CONFIG commands: configCheck, then configApply (44 R121). -/
def State.configure (k : Nat) (newMode : OpMode) (s : State) : Result :=
  if s.configAccepts k then .next (s.configApply k newMode) else .next (s.raiseError .badConfig)

/-- CONFIG_NEW constructs a new empty filter (44 R122). -/
def execConfigNew (k : Nat) (s : State) : Result := s.configure k .ready

/-- CONFIG_LOAD begins the reconstruction of a filter from a dump (44 R123). -/
def execConfigLoad (k : Nat) (s : State) : Result := s.configure k .load

/-- COMMIT ends reconstruction; refused unless LOAD (44 R124). -/
def execCommit (s : State) : Result :=
  if s.mode ≠ .load then .next (s.raiseError .badMode) else .next { s with mode := .ready }

end Sys2Proof.Machine
end

