-- ==== Sys2Proof/Machine/Hash.lean ====
section
/-! DEFINITION. The FNV-1a hash unit and the key commands (40_hash.md). -/

namespace Sys2Proof.Machine

/-- OFFSET_BASIS (00 R9). -/
def offsetBasis : Word := 0x811C9DC5#32

/-- FNV_PRIME (00 R9). -/
def fnvPrime : Word := 16777619#32

/-- SEED_A (00 R9). -/
def seedA : Word := 0#32

/-- SEED_B (00 R9). -/
def seedB : Word := 1576284489#32

/-- init(seed) = OFFSET_BASIS XOR seed (40 R84). -/
def hashInit (seed : Word) : Word := offsetBasis ^^^ seed

/-- fnvMul(a), the product mod 2^32 (40 R85). -/
def fnvMul (a : Word) : Word := a * fnvPrime

/-- fnvMul in the source's shift-and-add form (40 R85). -/
def fnvMulShiftAdd (a : Word) : Word := a + (a <<< 1) + (a <<< 4) + (a <<< 7) + (a <<< 8) + (a <<< 24)

/-- foldByte(a, b8): XOR first, then multiply (40 R86). -/
def foldByte (a : Word) (b : Byte) : Word := fnvMul (a ^^^ b.setWidth 32)

/-- The high byte is folded only when it is nonzero (40 R87). -/
def foldHighByte (a : Word) (c : CodeUnit) : Word := if unitHigh c ≠ 0#8 then foldByte a (unitHigh c) else a

/-- The low byte is always folded (40 R87). -/
def foldLowByte (a : Word) (c : CodeUnit) : Word := foldByte a (unitLow c)

/-- foldUnit(a, c), with the byte order UNIT_BYTE_ORDER (40 R87; PRESUMED by the spec, log 4). -/
def foldUnit (o : Config.UnitOrder) (a : Word) (c : CodeUnit) : Word :=
  match o with
  | .highFirst => foldLowByte (foldHighByte a c) c
  | .lowFirst => foldHighByte (foldLowByte a c) c

/-- acc(u, seed): the accumulator after a whole key (40 R83). -/
def hashAcc (o : Config.UnitOrder) (seed : Word) (u : List CodeUnit) : Word := u.foldl (foldUnit o) (hashInit seed)

/-- A shift of a mix step (00 R12, 40 R88). -/
def mixShift (d : Config.ShiftDir) (a : Word) (n : Nat) : Word :=
  match d with
  | .left => a <<< n
  | .rightZeroFill => a >>> n
  | .rightSignFill => a.sshiftRight n

/-- One step of the mix: the value combined with itself shifted (40 R88). -/
def mixStep (st : Config.MixStep) (n : Nat) (a : Word) : Word :=
  match st.op with
  | .additive => a + mixShift st.dir a n
  | .xor => a ^^^ mixShift st.dir a n

/-- mix(a): five steps with the shift amounts 13, 7, 3, 17 and 5, in that order (40 R88; FNV_MIX, log 5). -/
def mix (p : Config.MixPlan) (a : Word) : Word :=
  mixStep p.by5 5 (mixStep p.by17 17 (mixStep p.by3 3 (mixStep p.by7 7 (mixStep p.by13 13 a))))

/-- hash(u, seed) = mix(acc(u, seed)) (40 R83). -/
def hashOf (p : Config.Params) (seed : Word) (u : List CodeUnit) : Word := mix p.mixPlan (hashAcc p.unitOrder seed u)

/-- KEY_START begins a new key (40 R92). -/
def execKeyStart (s : State) : Result :=
  .next { s with laneA := hashInit seedA, laneB := hashInit seedB, keyLen := 0#32 }

/-- KEY_UNIT appends one code unit to the current key, in both lanes (40 R93). -/
def execKeyUnit (u : CodeUnit) (s : State) : Result :=
  .next { s with
    laneA := foldUnit s.params.unitOrder s.laneA u
    laneB := foldUnit s.params.unitOrder s.laneB u
    keyLen := s.keyLen + 1#32 }

end Sys2Proof.Machine
end

