-- ==== Sys2Proof/Machine/Locations.lean ====
section
/-! DEFINITION. The location generator, the finalization step and the HASH command (41_locations.md). -/

namespace Sys2Proof.Machine

/-- L[i] = (a + i * b) mod m with a and b read signed and the Euclidean remainder (41 R98, R96; 00 R12). -/
def location (a b : Word) (m i : Nat) : Nat := ((a.toInt + (i : Int) * b.toInt) % (m : Int)).toNat

/-- Normalization of a truncated remainder into [0, m) (41 R97). -/
def normalizeRem (m x : Int) : Int := if x < 0 then x + m else x

/-- The un-normalised x of the source's loop after i advances, with the truncated remainder rem_t (41 R97). -/
def sourceRem (a b : Word) (m : Nat) : Nat → Int
  | 0 => a.toInt.tmod m
  | i + 1 => (sourceRem a b m i + b.toInt).tmod m

/-- L[i] as the source's loop emits it (41 R97). The other reading of the source, which advances the normalized value, is
`sourceRemNormalized` (90 C5). -/
def sourceLocation (a b : Word) (m i : Nat) : Int := normalizeRem m (sourceRem a b m i)

/-- The source's loop in the reading that advances the normalized value (90 C5). -/
def sourceRemNormalized (a b : Word) (m : Nat) : Nat → Int
  | 0 => normalizeRem m (a.toInt.tmod m)
  | i + 1 => normalizeRem m ((sourceRemNormalized a b m i + b.toInt).tmod m)

/-- The unsigned recurrence of the probe lanes: add bp = b mod m and subtract m when the sum reaches it (41 R99). -/
def laneLocation (a b : Word) (m : Nat) : Nat → Nat
  | 0 => (a.toInt % (m : Int)).toNat
  | i + 1 =>
    if m ≤ laneLocation a b m i + (b.toInt % (m : Int)).toNat then
      laneLocation a b m i + (b.toInt % (m : Int)).toNat - m
    else laneLocation a b m i + (b.toInt % (m : Int)).toNat

/-- What the K_MAX lanes hold after finalization of hashes a and b: a location in each lane i < k, 0 in the others
(41 R101). -/
def laneLocations (kMax k m : Nat) (a b : Word) : List Nat :=
  (List.range kMax).map fun i => if i < k then location a b m i else 0

/-- The finalization step that HASH, ADD and TEST share (41 R101). The accumulators keep their values. -/
def State.finalize (s : State) : State :=
  { s with
    hashA := mix s.params.mixPlan s.laneA
    hashB := mix s.params.mixPlan s.laneB
    loc :=
      if s.mode.configured then
        laneLocations s.params.kMax s.k.toNat s.m.toNat (mix s.params.mixPlan s.laneA) (mix s.params.mixPlan s.laneB)
      else s.loc
    locv := s.mode.configured }

/-- HASH finalizes the current key; it is legal in every mode and touches no array word (41 R102). -/
def execHash (s : State) : Result :=
  if s.mode.configured then s.onFilter s.finalize else .next s.finalize

end Sys2Proof.Machine
end

