-- ==== Sys2Proof/Machine/BitStorage.lean ====
section
/-! DEFINITION. The bit array's set and test logic, population count and the POPCOUNT command (42_bit_storage.md). -/

namespace Sys2Proof.Machine

/-- setBit: the read-modify-write of the bit's word (42 R105). -/
def Memory.setBit (b : Memory) (i : Nat) : Memory := b.write (bitWord i) (b.read (bitWord i) ||| bitMask i)

/-- testBit (42 R106). -/
def Memory.testBit (b : Memory) (i : Nat) : Bool := decide (b.read (bitWord i) &&& bitMask i ≠ 0#32)

/-- The parallel set of the locations L, in one step (42 R107). -/
def parallelSet (b : Memory) (ls : List Nat) : Memory := ls.foldl Memory.setBit b

/-- The OR of mask(L[i]) over the lanes whose word is w (42 R107). -/
def orMasks (ls : List Nat) (w : Nat) : Word :=
  ls.foldr (fun l acc => if bitWord l = w then bitMask l ||| acc else acc) 0#32

/-- The parallel test of the locations L: the AND of their bits, true for no location (42 R108). -/
def parallelTest (b : Memory) (ls : List Nat) : Bool := ls.all b.testBit

/-- popcount(w): the number of 1 bits (42 R109, 00 R12). -/
def popcountWord (w : Word) : Nat := ((List.range 32).filter fun i => w.getLsbD i).length

/-- setBits: the population count over words 0 to n-1 (42 R110). -/
def setBits (b : Memory) (n : Nat) : Nat := ((List.range n).map fun w => popcountWord (b.read w)).sum

/-- POPCOUNT latches the population count of the visible words; refused in OFF (42 R111). -/
def execPopcount (s : State) : Result :=
  if s.mode = .off then .next (s.raiseError .badMode)
  else s.onFilter { s with pop := BitVec.ofNat 32 (setBits s.buckets s.nw) }

end Sys2Proof.Machine
end

