-- ==== Sys2Proof/Machine/Filter.lean ====
section
/-! DEFINITION. The filter operations ADD and TEST (43_filter_ops.md). -/

namespace Sys2Proof.Machine

/-- ADD inserts the current key; refused unless READY (43 R112). -/
def execAdd (s : State) : Result :=
  if s.mode ≠ .ready then .next (s.raiseError .badMode)
  else s.onFilter { s.finalize with buckets := parallelSet s.buckets s.finalize.probes }

/-- TEST tests the current key for membership; refused unless READY (43 R113). -/
def execTest (s : State) : Result :=
  if s.mode ≠ .ready then .next (s.raiseError .badMode)
  else s.onFilter { s.finalize with hit := parallelTest s.buckets s.finalize.probes }

end Sys2Proof.Machine
end

