-- ==== Sys2Proof/Machine/Dispatch.lean ====
section
/-! DEFINITION. One arm per command (30_encoding.md rule R79, last line). -/

namespace Sys2Proof.Machine

def exec (i : Instr) (s : State) : Host.Outcome State Fault Refusal :=
  match i with
  | .nop => Sys2Proof.Machine.execNop s
  | .keyStart => Sys2Proof.Machine.execKeyStart s
  | .keyUnit u => Sys2Proof.Machine.execKeyUnit u s
  | .hash => Sys2Proof.Machine.execHash s
  | .add => Sys2Proof.Machine.execAdd s
  | .test => Sys2Proof.Machine.execTest s
  | .popcount => Sys2Proof.Machine.execPopcount s
  | .configNew k => Sys2Proof.Machine.execConfigNew k s
  | .configLoad k => Sys2Proof.Machine.execConfigLoad k s
  | .commit => Sys2Proof.Machine.execCommit s

end Sys2Proof.Machine
end

