-- ==== Sys2Proof/Machine/Flags.lean ====
section
/-! DEFINITION. The status bits and how registers show them (10_state.md rules R25, R27, R33, R44; 60_exceptions.md rule R130). The BFLE
has no arithmetic flags. -/

namespace Sys2Proof.Machine

/-- A status bit in bit 0 of a word. -/
def bit0 (b : Bool) : Word := if b then 1#32 else 0#32

/-- The MODE field: 0 OFF, 1 LOAD, 2 READY (10 R21, R27). -/
def OpMode.code : OpMode → Word
  | .off => 0#32
  | .load => 1#32
  | .ready => 2#32

/-- The ERRCODE field (60 R130). -/
def ErrCode.code : ErrCode → Word
  | .none => 0#32
  | .illegalOp => 1#32
  | .rsvdField => 2#32
  | .badMode => 3#32
  | .badConfig => 4#32
  | .indexRange => 5#32
  | .readOnly => 6#32
  | .access => 7#32

/-- STATUS as a read returns it (10 R27). -/
def State.statusWord (s : State) : Word :=
  s.mode.code ||| (bit0 s.locv <<< 2) ||| (bit0 s.err <<< 8) ||| (bit0 s.errMulti <<< 9) ||| (s.errCode.code <<< 12)

/-- PARAM: K_MAX in bits 7 to 0 and VERSION = 1 in bits 15 to 8 (10 R25). -/
def State.paramWord (s : State) : Word := (BitVec.ofNat 8 s.params.kMax).setWidth 32 ||| 0x00000100#32

/-- LOC_DATA: the location of the selected lane while the locations are valid and the lane is in use, else 0 (10 R40). -/
def State.locDataWord (s : State) : Word :=
  if s.locv = true ∧ s.locSel.toNat < s.k.toNat then BitVec.ofNat 32 (s.loc.getD s.locSel.toNat 0) else 0#32

end Sys2Proof.Machine
end

