-- ==== Sys2Proof/Machine/Registers.lean ====
section
/-! DEFINITION. The register window: offsets, host reads and host writes (10_state.md rules R16 to R40, 20_memory.md rules R47 to R51,
44_config_serialization.md rules R125 and R126). A CMD write decodes and executes one command (30_encoding.md rule R79). -/

namespace Sys2Proof.Machine

/-- The byte offset of each register (10 R16). -/
def regOffset : Reg → BitVec 8
  | .id => 0x00#8
  | .param => 0x04#8
  | .wmax => 0x08#8
  | .status => 0x0C#8
  | .cmd => 0x10#8
  | .cfgCap => 0x14#8
  | .m => 0x18#8
  | .k => 0x1C#8
  | .result => 0x20#8
  | .hashA => 0x24#8
  | .hashB => 0x28#8
  | .popcount => 0x2C#8
  | .arrayIdx => 0x30#8
  | .arrayData => 0x34#8
  | .keyLen => 0x38#8
  | .locSel => 0x3C#8
  | .locData => 0x40#8

/-- The register at an aligned offset, by its number in the map; none from 0x44 on (10 R16, 20 R50). -/
def regAtIndex : Nat → Option Reg
  | 0 => some .id
  | 1 => some .param
  | 2 => some .wmax
  | 3 => some .status
  | 4 => some .cmd
  | 5 => some .cfgCap
  | 6 => some .m
  | 7 => some .k
  | 8 => some .result
  | 9 => some .hashA
  | 10 => some .hashB
  | 11 => some .popcount
  | 12 => some .arrayIdx
  | 13 => some .arrayData
  | 14 => some .keyLen
  | 15 => some .locSel
  | 16 => some .locData
  | _ => none

/-- The register an access names; none for a misaligned offset (20 R49) and for an unmapped one (20 R50). -/
def regAt (offset : BitVec 8) : Option Reg :=
  if offset.toNat % 4 = 0 then regAtIndex (offset.toNat / 4) else none

/-- What a read of a register other than ARRAY_DATA returns, without any side effect (10 R16, R20). ARRAY_DATA has no value of its
own (10 R37): its reads go through `readArrayData`. -/
def State.regValue (r : Reg) (s : State) : Word :=
  match r with
  | .id => 0x42464C45#32
  | .param => s.paramWord
  | .wmax => BitVec.ofNat 32 s.params.wMax
  | .status => s.statusWord
  | .cmd => 0#32
  | .cfgCap => s.cap
  | .m => s.m
  | .k => s.k.setWidth 32
  | .result => bit0 s.hit
  | .hashA => s.hashA
  | .hashB => s.hashB
  | .popcount => s.pop
  | .arrayIdx => s.aidx
  | .arrayData => 0#32
  | .keyLen => s.keyLen
  | .locSel => s.locSel.setWidth 32
  | .locData => s.locDataWord

/-- ARRAY_DATA read: the serialization readout (44 R125). -/
def readArrayData (s : State) : Result :=
  if s.mode = .off then .next (s.refuseRead .badMode)
  else if s.nw ≤ s.aidx.toNat then .next (s.refuseRead .indexRange)
  else s.onFilter { s.reply (s.buckets.read s.aidx.toNat) with aidx := s.aidx + 1#32 }

/-- ARRAY_DATA write: the reconstruction load (44 R126). -/
def writeArrayData (v : Word) (s : State) : Result :=
  if s.mode = .off then .next (s.raiseError .badMode)
  else if s.mode = .ready then .next (s.raiseError .readOnly)
  else if s.nw ≤ s.aidx.toNat then .next (s.raiseError .indexRange)
  else s.onFilter { s with buckets := s.buckets.write s.aidx.toNat v, aidx := s.aidx + 1#32 }

/-- The error a rejected command word records (30 R75, R76). -/
def decodeErrCode : DecodeError → ErrCode
  | .illegalOp => .illegalOp
  | .rsvdField => .rsvdField

/-- A CMD write executes one command or records one decode error (30 R79). -/
def runCommand (v : Word) (s : State) : Result :=
  match decode v with
  | .ok i => exec i s
  | .error e => .next (s.raiseError (decodeErrCode e))

/-- A host read of one register (10 R20, 20 R56). -/
def readReg (r : Reg) (s : State) : Result :=
  match r with
  | .arrayData => readArrayData s
  | .id => .next (s.reply (s.regValue .id))
  | .param => .next (s.reply (s.regValue .param))
  | .wmax => .next (s.reply (s.regValue .wmax))
  | .status => .next (s.reply (s.regValue .status))
  | .cmd => .next (s.reply (s.regValue .cmd))
  | .cfgCap => .next (s.reply (s.regValue .cfgCap))
  | .m => .next (s.reply (s.regValue .m))
  | .k => .next (s.reply (s.regValue .k))
  | .result => .next (s.reply (s.regValue .result))
  | .hashA => .next (s.reply (s.regValue .hashA))
  | .hashB => .next (s.reply (s.regValue .hashB))
  | .popcount => .next (s.reply (s.regValue .popcount))
  | .arrayIdx => .next (s.reply (s.regValue .arrayIdx))
  | .keyLen => .next (s.reply (s.regValue .keyLen))
  | .locSel => .next (s.reply (s.regValue .locSel))
  | .locData => .next (s.reply (s.regValue .locData))

/-- A host write of one register: read-only registers ignore it (10 R20), the others act by their own rules. -/
def writeReg (r : Reg) (v : Word) (s : State) : Result :=
  match r with
  | .status => .next (s.ackErrors v)
  | .cmd => runCommand v s
  | .cfgCap => .next { s with cap := v }
  | .arrayIdx => .next { s with aidx := v }
  | .arrayData => writeArrayData v s
  | .locSel => .next { s with locSel := v.extractLsb' 0 8 }
  | .id => .next s
  | .param => .next s
  | .wmax => .next s
  | .m => .next s
  | .k => .next s
  | .result => .next s
  | .hashA => .next s
  | .hashB => .next s
  | .popcount => .next s
  | .keyLen => .next s
  | .locData => .next s

/-- A host read at an offset of the window; a misaligned or unmapped one is refused (20 R49, R50). -/
def hostRead (offset : BitVec 8) (s : State) : Result :=
  match regAt offset with
  | none => .next (s.refuseRead .access)
  | some r => readReg r s

/-- A host write at an offset of the window; a misaligned or unmapped one is refused (20 R49, R50). -/
def hostWrite (offset : BitVec 8) (v : Word) (s : State) : Result :=
  match regAt offset with
  | none => .next (s.raiseError .access)
  | some r => writeReg r v s

/-- One move of the outside world, as one atomic step (20 R58, 70 R145). -/
def perform (e : HostEvent) (s : State) : Result :=
  match e with
  | .read offset => hostRead offset s
  | .write offset v => hostWrite offset v s
  | .reset contents => .next (s.applyReset contents)

/-- The oldest move that is still to be accepted, and the state once it is taken from the inbox (20 R61, R62). -/
def accept (s : State) : Option (HostEvent × State) :=
  match s.inbox with
  | [] => none
  | e :: rest => some (e, { s with inbox := rest })

/-- The inbox with a CMD write of v in front: the next access the block accepts carries this command word (10 R29). -/
def State.submit (v : Word) (s : State) : State := { s with inbox := .write (regOffset .cmd) v :: s.inbox }

end Sys2Proof.Machine
end

