-- ==== Sys2Proof/Machine/Step.lean ====
section
/-! DEFINITION. One step of the block: it performs the oldest access that is not accepted yet, and does nothing when there is none
(20_memory.md rules R58, R61, R62; 70_reset_and_hazards.md rule R148). -/

namespace Sys2Proof.Machine

/-- One step. With nothing to accept the block waits (70 R148; log 11). -/
def step (s : State) : Host.Outcome State Fault Refusal :=
  match accept s with
  | none => .next s
  | some (e, t) => perform e t

/-- `s` with the command word of an opcode-table row as its very next access, a CMD write: the BFLE fetches nothing (10 R18,
R29; log 10). A number that is no 32-bit word leaves the inbox as it is. -/
def State.withFetchWord (s : State) (nbits w : Nat) : State :=
  match tableWord nbits w with
  | none => s
  | some v => s.submit v

end Sys2Proof.Machine
end

