-- ==== Sys2Proof/Machine/HostProgram.lean ====
section
/-! DEFINITION. Host programs in the spec's notation: statements, pseudo-instructions and their expansions into host accesses
(30_encoding.md rules R80 to R82). The block sees only the expanded accesses. -/

namespace Sys2Proof.Machine

/-- One line of a host program (30 R80 to R82). A key is given by its code units (40 R91). -/
inductive Stmt where
  | wr (r : Reg) (v : Word)
  | rd (r : Reg)
  | cmd (i : Instr)
  | word (v : Word)
  | key (u : List CodeUnit)
  | addKey (u : List CodeUnit)
  | testKey (u : List CodeUnit)
  | newFilter (cap : Word) (k : Nat)
  | loadFilter (k : Nat) (ws : List Word)
  | dump (n : Nat)
  | clrErr
deriving DecidableEq, Repr

/-- `WR <REG>, <value>` (30 R80). -/
def wr (r : Reg) (v : Word) : HostEvent := .write (regOffset r) v

/-- `RD <REG>` (30 R80). -/
def rd (r : Reg) : HostEvent := .read (regOffset r)

/-- A command statement stands for `WR CMD, <encoding>` (30 R80, R81). -/
def cmd (i : Instr) : HostEvent := wr .cmd (encode i)

/-- `KEY "s"` (30 R82). -/
def keyEvents (u : List CodeUnit) : List HostEvent := cmd .keyStart :: u.map fun c => cmd (.keyUnit c)

/-- `LOADFILTER k, w0, ..., wn-1` (30 R82, 70 R150). From 2^27 words on, 32*n is no 32-bit value and the spec gives no WR of it: the
list stands for a write of 32*n mod 2^32 to CFG_CAP (DESIGN CHOICE, log 19). -/
def loadEvents (k : Nat) (ws : List Word) : List HostEvent :=
  wr .cfgCap (BitVec.ofNat 32 (32 * ws.length)) :: cmd (.configLoad k) :: ((ws.map (wr .arrayData)) ++ [cmd .commit])

/-- `DUMP n` (30 R82, 44 R127). -/
def dumpEvents (n : Nat) : List HostEvent := wr .arrayIdx 0#32 :: List.replicate n (rd .arrayData)

/-- The host accesses a line stands for (30 R80 to R82). -/
def Stmt.expand : Stmt → List HostEvent
  | .wr r v => [Machine.wr r v]
  | .rd r => [Machine.rd r]
  | .cmd i => [Machine.cmd i]
  | .word v => [Machine.wr .cmd v]
  | .key u => keyEvents u
  | .addKey u => keyEvents u ++ [Machine.cmd .add]
  | .testKey u => keyEvents u ++ [Machine.cmd .test, Machine.rd .result]
  | .newFilter cap k => [Machine.wr .cfgCap cap, Machine.cmd (.configNew k)]
  | .loadFilter k ws => loadEvents k ws
  | .dump n => dumpEvents n
  | .clrErr => [Machine.wr .status 0x00000300#32]

/-- What the assembler accepts: its operand checks (30 R81). A `WR` of any word to CMD is accepted, as 30 R80 lets WR name any
register, although 30 R81 calls `.word` the only way to spell a reserved or malformed command (DESIGN CHOICE, log 20). A LOADFILTER
of any number of words is accepted (log 19). -/
def Stmt.wf : Stmt → Bool
  | .wr _ _ => true
  | .rd _ => true
  | .cmd i => i.wf
  | .word _ => true
  | .key _ => true
  | .addKey _ => true
  | .testKey _ => true
  | .newFilter _ k => (Instr.configNew k).wf
  | .loadFilter k _ => (Instr.configLoad k).wf
  | .dump _ => true
  | .clrErr => true

/-- The accesses of a whole program, in order (30 R80). -/
def assemble (p : List Stmt) : List HostEvent := p.flatMap Stmt.expand

/-- The code units of one character: itself, or the surrogate pair of a character outside the Basic Multilingual Plane (30 R82;
the pair's formula is PRESUMED from UTF-16, log 15). -/
def unitsOfChar (c : Char) : List CodeUnit :=
  if c.toNat < 65536 then [BitVec.ofNat 16 c.toNat]
  else [BitVec.ofNat 16 (0xD800 + (c.toNat - 65536) / 1024), BitVec.ofNat 16 (0xDC00 + (c.toNat - 65536) % 1024)]

/-- The code units of a string literal, in string order (30 R82). -/
def unitsOfChars (cs : List Char) : List CodeUnit := cs.flatMap unitsOfChar

end Sys2Proof.Machine
end

