-- ==== Sys2Proof/Safety.lean ====
section
/-! DEFINITION. The terms in which claims are made: the invariant of every reachable state, what a refused access is, which moves can
replace a filter, and when two states look the same to every access. -/

namespace Sys2Proof.Machine

/-- A state from which the block goes on (60 R129, 70 R160). -/
def Safe (s : State) : Prop := ∃ t, step s = .next t

/-- What holds of every reachable state (10 R22, R35, R42, R45; 00 R6, R7; 60 R131). -/
structure BlockInv (s : State) : Prop where
  /-- K_MAX and W_MAX are in range (00 R6, R7). -/
  params_valid : s.params.valid = true
  /-- "When the mode is OFF, st.m = 0 and st.k = 0" (10 R22). -/
  off_empty : s.mode = .off → s.m = 0#32 ∧ s.k = 0#8
  /-- m and k are in range in a configured mode (10 R22, R45 item 1). -/
  configured_geometry : s.mode.configured = true → s.geometryOk = true
  /-- Valid locations are below m, and there are none in OFF (10 R42, R45 item 2). -/
  locv_below : s.locv = true → s.mode.configured = true ∧ ∀ i < s.k.toNat, s.loc.getD i 0 < s.m.toNat
  /-- There are K_MAX lanes (10 R42). -/
  loc_lanes : s.loc.length = s.params.kMax
  /-- "0 <= st.pop <= st.m" (10 R35). -/
  pop_le : s.pop.toNat ≤ s.m.toNat
  /-- The bit array is in canonical form. -/
  buckets_wf : Memory.wf s.buckets
  /-- No word outside the storage is listed (10 R23). -/
  buckets_below : ∀ c ∈ s.buckets, c.1 < s.params.wMax
  /-- ERR is set exactly when a code is recorded (10 R28, 60 R131). -/
  err_iff_code : s.err = false ↔ s.errCode = .none

/-- The error record: ERR, ERR_MULTI and ERRCODE (10 R43). -/
def State.errorRecord (s : State) : Bool × Bool × ErrCode := (s.err, s.errMulti, s.errCode)

/-- The first failing check of a list, in order (60 R133). -/
def firstError : List (Bool × ErrCode) → Option ErrCode
  | [] => none
  | (fails, code) :: rest => if fails then some code else firstError rest

/-- The checks of a CMD write of v, in the order of 60 R133: the decode errors, then the command's own mode or configuration
check (60 R130). Written from the table of causes, not from the decoder. -/
def commandChecks (v : Word) (s : State) : List (Bool × ErrCode) :=
  [ (decide (10 ≤ opField v), .illegalOp),
    (decide (v &&& rsvdMask (opField v) ≠ 0#32), .rsvdField),
    (decide ((opField v = 4 ∨ opField v = 5) ∧ s.mode ≠ .ready), .badMode),
    (decide (opField v = 6 ∧ s.mode = .off), .badMode),
    (decide (opField v = 9 ∧ s.mode ≠ .load), .badMode),
    (decide ((opField v = 7 ∨ opField v = 8) ∧
      (s.cap = 0#32 ∨ 32 * s.params.wMax < s.cap.toNat ∨ s.params.kMax < kField v)), .badConfig) ]

/-- The checks of an access, in the order of 60 R133: misaligned, unmapped, then the register's own. -/
def eventChecks (e : HostEvent) (s : State) : List (Bool × ErrCode) :=
  match e with
  | .read o =>
    [ (decide (o.toNat % 4 ≠ 0), .access),
      (decide (0x44 ≤ o.toNat), .access),
      (decide (o = 0x34#8 ∧ s.mode = .off), .badMode),
      (decide (o = 0x34#8 ∧ s.nw ≤ s.aidx.toNat), .indexRange) ]
  | .write o v =>
    [ (decide (o.toNat % 4 ≠ 0), .access),
      (decide (0x44 ≤ o.toNat), .access),
      (decide (o = 0x34#8 ∧ s.mode = .off), .badMode),
      (decide (o = 0x34#8 ∧ s.mode = .ready), .readOnly),
      (decide (o = 0x34#8 ∧ s.nw ≤ s.aidx.toNat), .indexRange) ] ++
      (if o = 0x10#8 then commandChecks v s else [])
  | .reset _ => []

/-- The error an access records: none when it is not refused (60 R133). -/
def eventError (e : HostEvent) (s : State) : Option ErrCode := firstError (eventChecks e s)

/-- What a refused access does: the record, and the value 0 if it was a read (60 R129, R131, R132). -/
def refusedBy (e : HostEvent) (code : ErrCode) (s : State) : State :=
  match e with
  | .read _ => s.refuseRead code
  | .write _ _ => s.raiseError code
  | .reset _ => s

/-- The move is a CMD write of a word that decodes to i. -/
def isCommand (e : HostEvent) (i : Instr) : Prop := ∃ v, e = .write (regOffset .cmd) v ∧ decode v = .ok i

/-- How a command without operands is written down: its word is its opcode with zeros below, a CMD write of that word executes it,
and a word of the same opcode with any other bit set is refused with ERR_RSVD_FIELD (30 R70, R74, R76). -/
def isPlainCommand (op : Nat) (i : Instr) : Prop :=
  encode i = BitVec.ofNat 32 (op * 2 ^ 28) ∧
  ∀ (v : Word) (s : State), v.toNat / 2 ^ 28 = op → hostWrite 0x10#8 v s =
    if v.toNat % 2 ^ 28 = 0 then exec i s else .next (s.raiseError .rsvdField)

/-- How a command with an operand of `bits` bits is written down: its word is its opcode, zeros, and the operand x; a word of the
same opcode with a bit set between them is refused with ERR_RSVD_FIELD (30 R71, R72, R73, R76). -/
def isOperandCommand (op bits : Nat) (i : Nat → Instr) : Prop :=
  (∀ x < 2 ^ bits, encode (i x) = BitVec.ofNat 32 (op * 2 ^ 28 + x)) ∧
  ∀ (v : Word) (s : State), v.toNat / 2 ^ 28 = op → hostWrite 0x10#8 v s =
    if v.toNat % 2 ^ 28 / 2 ^ bits = 0 then exec (i (v.toNat % 2 ^ bits)) s else .next (s.raiseError .rsvdField)

/-- The code unit that a move gives the current key: that of a CMD write which decodes to KEY_UNIT (40 R94). -/
def unitIn (e : HostEvent) : Option CodeUnit :=
  match e with
  | .write o v =>
    if o = regOffset .cmd then
      match decode v with
      | .ok (.keyUnit u) => some u
      | .ok _ => none
      | .error _ => none
    else none
  | .read _ => none
  | .reset _ => none

/-- The code units that moves give the current key, in order (40 R94). -/
def unitsIn (es : List HostEvent) : List CodeUnit := es.filterMap unitIn

/-- Neither a reset nor a CONFIG_NEW or CONFIG_LOAD command word: a move that leaves the filter in being (43 R115). -/
def keepsFilter (e : HostEvent) : Bool :=
  match e with
  | .read _ => true
  | .write o v => !(decide (o = regOffset .cmd) && (decide (opField v = 7) || decide (opField v = 8)))
  | .reset _ => false

/-- The current key is u: both lanes hold its accumulators (40 R94). -/
def State.currentKey (s : State) (u : List CodeUnit) : Prop :=
  s.laneA = hashAcc s.params.unitOrder seedA u ∧ s.laneB = hashAcc s.params.unitOrder seedB u

/-- The visible words 0 to nw-1, in order (44 R127). -/
def State.visibleWords (s : State) : List Word := (List.range s.nw).map s.buckets.read

/-- The outside world's moves with the unspecified contents of every reset left out (70 R147). -/
def eraseContents : HostEvent → HostEvent
  | .read o => .read o
  | .write o v => .write o v
  | .reset _ => .reset []

/-- Two states that agree in everything but invisible words and the contents that resets still to come will leave
(10 R23, 70 R147). -/
def sameVisible (s t : State) : Prop :=
  { s with buckets := [], inbox := s.inbox.map eraseContents } =
      { t with buckets := [], inbox := t.inbox.map eraseContents } ∧
    ∀ w < s.nw, s.buckets.read w = t.buckets.read w

/-- `s` with these moves to come, and no others. -/
def State.facing (s : State) (es : List HostEvent) : State := { s with inbox := es }

/-- The run of these moves from `s`: one step for each (70 R160). -/
def runAll (s : State) (es : List HostEvent) : Host.Outcome State Fault Refusal :=
  Sys2Proof.core.run es.length (s.facing es)

end Sys2Proof.Machine
end

