-- ==== Sys2Proof/Certificates/Slice0/Obligations.lean ====
section
/-! DEFINITION. The statements about the model, for the provers. Each docstring names the rules of the spec it formalises. Statements
about a step have the invariant `BlockInv` as a premise where a state outside 10 R22 could make them fail. -/

open Sys2Proof Sys2Proof.Machine

/-! ### Encoding (30_encoding.md) -/

/-- 30 R74, R79, R81: decoding the word of a command the assembler accepts gives that command, with every operand. -/
def Obligations.DecodeInvertsEncode : Prop :=
  ∀ i : Instr, i.wf = true → decode (encode i) = .ok i

/-- 30 R74, R77: a word that decodes is exactly the encoding of its command, and the assembler accepts that command. -/
def Obligations.EncodeInvertsDecode : Prop :=
  ∀ (v : Word) (i : Instr), decode v = .ok i → i.wf = true ∧ encode i = v

/-- 30 R74: a word is a command exactly when it matches that command's row, and no word matches two rows. -/
def Obligations.DecoderAgreesWithOpcodeMap : Prop :=
  (∀ (v : Word) (i : Instr), decode v = .ok i →
    ∃ r ∈ opcodeMap, r.mnemonic = i.mnemonic ∧ v &&& r.mask = r.pattern) ∧
  (∀ v : Word, ∀ r ∈ opcodeMap, v &&& r.mask = r.pattern → ∃ i, decode v = .ok i ∧ i.mnemonic = r.mnemonic) ∧
  opcodeMap.Pairwise fun r q => ∀ v : Word, v &&& r.mask = r.pattern → v &&& q.mask ≠ q.pattern

/-- 30 R75, R76, R79: a CMD write of a reserved opcode records ERR_ILLEGAL_OP; one of an assigned opcode with a nonzero bit
under its format's mask records ERR_RSVD_FIELD; every other word executes the command of its opcode, with UNIT its low 16 bits or
K its low 8 bits. -/
def Obligations.CommandWriteExecutesOrRefuses : Prop :=
  ∀ (v : Word) (s : State) (op : Nat) (rsvd : Word), op = v.toNat / 2 ^ 28 →
    rsvd = (if op = 2 then 0x0FFF0000#32 else if op = 7 ∨ op = 8 then 0x0FFFFF00#32 else 0x0FFFFFFF#32) →
    (10 ≤ op → hostWrite 0x10#8 v s = .next (s.raiseError .illegalOp)) ∧
    (op < 10 → v &&& rsvd ≠ 0#32 → hostWrite 0x10#8 v s = .next (s.raiseError .rsvdField)) ∧
    (op < 10 → v &&& rsvd = 0#32 → ∃ i,
      [.nop, .keyStart, .keyUnit (BitVec.ofNat 16 (v.toNat % 65536)), .hash, .add, .test, .popcount,
        .configNew (v.toNat % 256), .configLoad (v.toNat % 256), .commit][op]? = some i ∧
      decode v = .ok i ∧ hostWrite 0x10#8 v s = exec i s)

/-- 30 R81, R82: words of the spec's own programs decode to the commands they stand for. -/
def Obligations.SampleWordsDecode : Prop :=
  decode 0x20000078#32 = .ok (.keyUnit 0x0078#16) ∧ decode 0x70000002#32 = .ok (.configNew 2) ∧
  decode 0x80000003#32 = .ok (.configLoad 3) ∧ decode 0x90000000#32 = .ok .commit ∧
  decode 0x20010041#32 = .error .rsvdField ∧ decode 0xA0000000#32 = .error .illegalOp

/-! ### Steps (20_memory.md, 70_reset_and_hazards.md) -/

/-- 10 R29, 20 R62: when the oldest access that is still to come writes a word to CMD that decodes to i, the step is `exec i` on the
state with that access taken from the inbox, and nothing else is taken. -/
def Obligations.StepRunsDecodedCommand : Prop :=
  ∀ (s : State) (v : Word) (i : Instr) (es : List HostEvent), s.inbox = .write 0x10#8 v :: es → decode v = .ok i →
    step s = exec i (s.facing es) ∧ ∀ t, step s = .next t → t.inbox = es

/-- 20 R61, R62, 70 R148: a step performs the oldest access and takes it alone from the inbox; with none to come the block
waits. That a step without an access changes nothing is the model's reading of R148 (log 11). -/
def Obligations.StepPerformsOldestAccess : Prop :=
  (∀ s : State, s.inbox = [] → step s = .next s) ∧
  ∀ (s : State) (e : HostEvent) (es : List HostEvent), s.inbox = e :: es →
    step s = perform e (s.facing es) ∧ ∀ t, step s = .next t → t.inbox = es

/-- 10 R45, R22, R35, R42, 60 R129: from every state that meets the invariant the step answers a next state that meets it: the
block never stops. -/
def Obligations.EveryStepKeepsInvariant : Prop :=
  ∀ s : State, BlockInv s → ∃ t, step s = .next t ∧ BlockInv t

/-- 70 R146, R147: the state after reset meets the invariant, for all legal parameters and whatever the bit array holds. -/
def Obligations.ResetMeetsInvariant : Prop :=
  BlockInv State.reset ∧
  ∀ (p : Config.Params) (cs : List (Nat × Word)), p.valid = true →
    BlockInv (State.resetWith p (Memory.ofContents p.wMax cs))

/-! ### Reset (70_reset_and_hazards.md) -/

/-- 70 R146: the reset input leaves every state element at its reset value; what the bit array holds is not fixed, any word can
be there. -/
def Obligations.ResetValues : Prop :=
  (∀ (s : State) (cs : List (Nat × Word)), ∃ t, perform (.reset cs) s = .next t ∧
    t.mode = .off ∧ t.m = 0#32 ∧ t.k = 0#8 ∧ t.cap = 0#32 ∧
    t.laneA = 0x811C9DC5#32 ∧ t.laneA = hashInit seedA ∧ t.laneB = 0xDCE8AC8C#32 ∧ t.laneB = hashInit seedB ∧
    t.keyLen = 0#32 ∧ t.hashA = 0#32 ∧ t.hashB = 0#32 ∧ t.loc = List.replicate s.params.kMax 0 ∧ t.locv = false ∧
    t.hit = false ∧ t.pop = 0#32 ∧ t.aidx = 0#32 ∧ t.locSel = 0#8 ∧
    t.err = false ∧ t.errMulti = false ∧ t.errCode = .none) ∧
  ∀ (s : State) (w : Nat) (v : Word), w < s.params.wMax →
    ∃ cs t, perform (.reset cs) s = .next t ∧ t.buckets.read w = v

/-- 70 R145, 10 R16: straight after reset every register reads its reset value: ID, PARAM and WMAX their constants, every other
mapped register but ARRAY_DATA (which has none of its own) 0. -/
def Obligations.RegistersReadTheirResetValues : Prop :=
  ∀ (s t : State) (cs : List (Nat × Word)), s.params.valid = true → perform (.reset cs) s = .next t →
    hostRead 0x00#8 t = .next (t.reply 0x42464C45#32) ∧
    hostRead 0x04#8 t = .next (t.reply (BitVec.ofNat 32 s.params.kMax ||| 0x00000100#32)) ∧
    hostRead 0x08#8 t = .next (t.reply (BitVec.ofNat 32 s.params.wMax)) ∧
    ∀ o : BitVec 8, o.toNat % 4 = 0 → 0x0C ≤ o.toNat → o.toNat ≤ 0x40 → o ≠ 0x34#8 →
      hostRead o t = .next (t.reply 0#32)

/-- 70 R147: whatever the bit array held at reset, and whatever later resets leave in it, every run returns the same values to
the host. -/
def Obligations.ResetContentsAreUnobservable : Prop :=
  ∀ (p : Config.Params) (cs ds : List (Nat × Word)) (es fs : List HostEvent) (s t : State), p.valid = true →
    es.map eraseContents = fs.map eraseContents →
    runAll (State.resetWith p (Memory.ofContents p.wMax cs)) es = .next s →
    runAll (State.resetWith p (Memory.ofContents p.wMax ds)) fs = .next t → s.outbox = t.outbox

/-- 10 R23, 70 R147: two states that agree in everything but words at and above nw take steps that agree in everything but such
words. -/
def Obligations.InvisibleWordsAreUnobservable : Prop :=
  ∀ s t s' : State, BlockInv s → BlockInv t → sameVisible s t → step s = .next s' →
    ∃ t', step t = .next t' ∧ sameVisible s' t'

/-! ### Errors (60_exceptions.md) -/

/-- 60 R131: the first error sets ERR and ERRCODE, a later one only ERR_MULTI; nothing else changes, and a refused read returns
0. An access that sets ERR or ERR_MULTI, or changes ERRCODE to a code, is refused with one of its failing checks. -/
def Obligations.ErrorRecording : Prop :=
  (∀ (s : State) (c : ErrCode),
    (s.err = false → s.raiseError c = { s with err := true, errCode := c }) ∧
    (s.err = true → s.raiseError c = { s with errMulti := true }) ∧
    s.refuseRead c = { s.raiseError c with outbox := s.outbox ++ [0#32] }) ∧
  ∀ (e : HostEvent) (s t : State), BlockInv s → perform e s = .next t →
    (s.err = false ∧ t.err = true) ∨ (s.errMulti = false ∧ t.errMulti = true) ∨
      (t.errCode ≠ s.errCode ∧ t.errCode ≠ .none) →
    ∃ c, eventError e s = some c ∧ t = refusedBy e c s

/-- 60 R132, R133: an access that fails a check records the first failing one in the order of the rule and does nothing else; a
refused read returns 0. -/
def Obligations.RefusedAccessIsPrecise : Prop :=
  ∀ (e : HostEvent) (s : State) (c : ErrCode), eventError e s = some c → perform e s = .next (refusedBy e c s)

/-- 60 R131, R133: an access that passes all its checks completes and records no error. -/
def Obligations.AcceptedAccessRecordsNoError : Prop :=
  ∀ (e : HostEvent) (s : State), BlockInv s → eventError e s = none →
    (∀ v, e ≠ .write 0x0C#8 v) → (∀ cs, e ≠ .reset cs) →
    ∃ t, perform e s = .next t ∧ t.errorRecord = s.errorRecord

/-- 10 R28: a STATUS write clears ERR and ERRCODE by bit 8 and ERR_MULTI by bit 9, ignores every other bit and records no
error. -/
def Obligations.StatusWriteAcknowledges : Prop :=
  ∀ (v : Word) (s : State), ∃ t, hostWrite 0x0C#8 v s = .next t ∧
    (v.toNat / 256 % 2 = 1 → t.err = false ∧ t.errCode = .none) ∧
    (v.toNat / 256 % 2 = 0 → t.err = s.err ∧ t.errCode = s.errCode) ∧
    (v.toNat / 512 % 2 = 1 → t.errMulti = false) ∧
    (v.toNat / 512 % 2 = 0 → t.errMulti = s.errMulti) ∧
    { t with err := s.err, errCode := s.errCode, errMulti := s.errMulti } = s

/-- 10 R27, 60 R130: the fields of STATUS as a read returns it. -/
def Obligations.StatusReadFields : Prop :=
  ∀ s : State, ∃ v : Word, hostRead 0x0C#8 s = .next (s.reply v) ∧
    v.toNat % 4 = (match s.mode with | .off => 0 | .load => 1 | .ready => 2) ∧
    v.getLsbD 2 = s.locv ∧ v.toNat / 8 % 32 = 0 ∧ v.getLsbD 8 = s.err ∧ v.getLsbD 9 = s.errMulti ∧
    v.toNat / 1024 % 4 = 0 ∧
    v.toNat / 4096 % 16 = (match s.errCode with
      | .none => 0 | .illegalOp => 1 | .rsvdField => 2 | .badMode => 3 | .badConfig => 4 | .indexRange => 5
      | .readOnly => 6 | .access => 7) ∧
    v.toNat / 65536 = 0

/-! ### Registers (10_state.md, 20_memory.md) -/

/-- 10 R24, R25, R26, R32: ID, PARAM, WMAX and K; and what the other read-only views return (10 R16): M, RESULT, HASH_A, HASH_B,
POPCOUNT and KEY_LEN. -/
def Obligations.RegisterViews : Prop :=
  ∀ s : State,
    hostRead 0x00#8 s = .next (s.reply 0x42464C45#32) ∧
    (s.params.valid = true → (∃ v : Word, hostRead 0x04#8 s = .next (s.reply v) ∧
      v.toNat % 256 = s.params.kMax ∧ v.toNat / 256 % 256 = 1 ∧ v.toNat / 65536 = 0) ∧
      ∃ v : Word, hostRead 0x08#8 s = .next (s.reply v) ∧ v.toNat = s.params.wMax) ∧
    (∃ v : Word, hostRead 0x1C#8 s = .next (s.reply v) ∧ v.toNat % 256 = s.k.toNat ∧ v.toNat / 256 = 0) ∧
    hostRead 0x18#8 s = .next (s.reply s.m) ∧
    hostRead 0x20#8 s = .next (s.reply (if s.hit then 1#32 else 0#32)) ∧
    hostRead 0x24#8 s = .next (s.reply s.hashA) ∧ hostRead 0x28#8 s = .next (s.reply s.hashB) ∧
    hostRead 0x2C#8 s = .next (s.reply s.pop) ∧ hostRead 0x38#8 s = .next (s.reply s.keyLen)

/-- 20 R51: byte lane j of a bus carries bits 8j to 8j+7 of the word, and the four lanes together carry the whole word. -/
def Obligations.BusLanesCarryTheWord : Prop :=
  ∀ v : Word, (∀ j < 4, (busLane v j).toNat = v.toNat / 2 ^ (8 * j) % 256) ∧
    ofBusLanes (busLane v 0) (busLane v 1) (busLane v 2) (busLane v 3) = v

/-- 10 R20: a write to a read-only register is ignored with no error; a read of CMD returns 0 and executes nothing; no read of
a register other than ARRAY_DATA has a side effect. -/
def Obligations.AccessTypes : Prop :=
  (∀ o ∈ [0x00#8, 0x04#8, 0x08#8, 0x18#8, 0x1C#8, 0x20#8, 0x24#8, 0x28#8, 0x2C#8, 0x38#8, 0x40#8],
    ∀ (v : Word) (s : State), hostWrite o v s = .next s) ∧
  (∀ s : State, hostRead 0x10#8 s = .next (s.reply 0#32)) ∧
  ∀ (o : BitVec 8) (s : State), o.toNat % 4 = 0 → o.toNat ≤ 0x40 → o ≠ 0x34#8 →
    ∃ v, hostRead o s = .next (s.reply v)

/-- 20 R49, R50: an access at a misaligned or an unmapped offset records ERR_ACCESS, reads 0 and has no other effect. -/
def Obligations.MisalignedAndUnmappedAccesses : Prop :=
  ∀ (o : BitVec 8) (v : Word) (s : State), o.toNat % 4 ≠ 0 ∨ 0x44 ≤ o.toNat →
    hostRead o s = .next ((s.raiseError .access).reply 0#32) ∧ hostWrite o v s = .next (s.raiseError .access)

/-- 10 R30, R39, R36, 20 R57: a write of CFG_CAP, ARRAY_IDX or LOC_SEL stores its value and changes nothing else, a read gives
it back, LOC_SEL keeps bits 7 to 0 only, and repeating such a write or a STATUS write changes nothing more. -/
def Obligations.ReadWriteRegisters : Prop :=
  ∀ (v : Word) (s : State),
    hostWrite 0x14#8 v s = .next { s with cap := v } ∧ hostRead 0x14#8 s = .next (s.reply s.cap) ∧
    hostWrite 0x30#8 v s = .next { s with aidx := v } ∧ hostRead 0x30#8 s = .next (s.reply s.aidx) ∧
    hostWrite 0x3C#8 v s = .next { s with locSel := BitVec.ofNat 8 v.toNat } ∧
    hostRead 0x3C#8 s = .next (s.reply (BitVec.ofNat 32 s.locSel.toNat)) ∧
    ∀ o ∈ [0x14#8, 0x30#8, 0x3C#8, 0x0C#8], ∃ t, hostWrite o v s = .next t ∧ hostWrite o v t = .next t

/-- 10 R40: LOC_DATA reads the location of the selected lane while LOCV = 1 and the lane is below k, else 0. In a state that meets
the invariant that location is a word. -/
def Obligations.LocDataRead : Prop :=
  ∀ s : State, BlockInv s → ∃ v : Word, hostRead 0x40#8 s = .next (s.reply v) ∧
    v.toNat = if s.locv = true ∧ s.locSel.toNat < s.k.toNat then s.loc.getD s.locSel.toNat 0 else 0

/-- 44 R125: the ARRAY_DATA read and its errors. -/
def Obligations.ArrayDataRead : Prop :=
  ∀ s : State, BlockInv s →
    (s.mode = .off → hostRead 0x34#8 s = .next ((s.raiseError .badMode).reply 0#32)) ∧
    (s.mode ≠ .off → s.m.toNat / 32 ≤ s.aidx.toNat →
      hostRead 0x34#8 s = .next ((s.raiseError .indexRange).reply 0#32)) ∧
    (s.mode ≠ .off → s.aidx.toNat < s.m.toNat / 32 →
      hostRead 0x34#8 s = .next { s.reply (s.buckets.read s.aidx.toNat) with aidx := s.aidx + 1#32 })

/-- 44 R126: the ARRAY_DATA write and its errors, in their order. -/
def Obligations.ArrayDataWrite : Prop :=
  ∀ (v : Word) (s : State), BlockInv s →
    (s.mode = .off → hostWrite 0x34#8 v s = .next (s.raiseError .badMode)) ∧
    (s.mode = .ready → hostWrite 0x34#8 v s = .next (s.raiseError .readOnly)) ∧
    (s.mode = .load → s.m.toNat / 32 ≤ s.aidx.toNat → hostWrite 0x34#8 v s = .next (s.raiseError .indexRange)) ∧
    (s.mode = .load → s.aidx.toNat < s.m.toNat / 32 → ∃ t, hostWrite 0x34#8 v s = .next t ∧
      t.aidx = s.aidx + 1#32 ∧
      (∀ w, t.buckets.read w = if w = s.aidx.toNat then v else s.buckets.read w) ∧
      { t with buckets := s.buckets, aidx := s.aidx } = s)

/-! ### The hash unit (40_hash.md) -/

/-- 40 R92: KEY_START, word 0x10000000, sets both lanes to their seeded offset bases and KEY_LEN to 0, in every mode, and changes
nothing else. -/
def Obligations.KeyStartBeginsAKey : Prop :=
  isPlainCommand 1 .keyStart ∧ ∀ s : State, exec .keyStart s =
    .next { s with laneA := 0x811C9DC5#32, laneB := 0xDCE8AC8C#32, keyLen := 0#32 }

/-- 40 R93: KEY_UNIT, word 0x20000000 OR the unit, folds the unit into both lanes and counts it mod 2^32, in every mode, and
changes nothing else. -/
def Obligations.KeyUnitFoldsBothLanes : Prop :=
  isOperandCommand 2 16 (fun x => .keyUnit (BitVec.ofNat 16 x)) ∧
  ∀ (u : CodeUnit) (s : State), exec (.keyUnit u) s = .next { s with
    laneA := foldUnit s.params.unitOrder s.laneA u
    laneB := foldUnit s.params.unitOrder s.laneB u
    keyLen := BitVec.ofNat 32 (s.keyLen.toNat + 1) }

/-- 40 R85: the product mod 2^32 and the source's shift-and-add form are the same value. -/
def Obligations.FnvMultiplyForms : Prop :=
  ∀ a : Word, (fnvMul a).toNat = a.toNat * 16777619 % 2 ^ 32 ∧
    fnvMul a = a + (a <<< 1) + (a <<< 4) + (a <<< 7) + (a <<< 8) + (a <<< 24)

/-- 40 R86, R87: one code unit under the order HIGH_FIRST: its high byte only when nonzero, then its low byte always, each by
exclusive or and then the multiply. The order is the spec's own choice from outside its source (log 4). -/
def Obligations.CodeUnitFold : Prop :=
  ∀ (a : Word) (c : CodeUnit), foldUnit .highFirst a c =
    ((if c.toNat / 256 ≠ 0 then (a ^^^ BitVec.ofNat 32 (c.toNat / 256)) * 16777619#32 else a) ^^^
      BitVec.ofNat 32 (c.toNat % 256)) * 16777619#32

/-- 40 R88: the five steps of the reference mix. The assignment of operations is the spec's own choice from outside its source
(log 5). -/
def Obligations.ReferenceMix : Prop :=
  ∀ a a1 a2 a3 a4 : Word, a1 = a + (a <<< 13) → a2 = a1 ^^^ (a1 >>> 7) → a3 = a2 + (a2 <<< 3) →
    a4 = a3 ^^^ (a3 >>> 17) → mix .reference a = a4 + (a4 <<< 5)

/-- 40 R94: after KEY_START and any moves without another KEY_START or reset, the lanes hold the accumulators of the units that
the successful KEY_UNIT commands among them gave, KEY_LEN counts them, and a HASH then latches the two base hashes of that key. -/
def Obligations.StreamingEqualsBatch : Prop :=
  ∀ (s : State) (es : List HostEvent), BlockInv s →
    (∀ e ∈ es, ¬ isCommand e .keyStart ∧ ∀ cs, e ≠ .reset cs) →
    ∃ t h, runAll s (.write 0x10#8 0x10000000#32 :: es) = .next t ∧ t.currentKey (unitsIn es) ∧
      t.keyLen = BitVec.ofNat 32 (unitsIn es).length ∧
      exec .hash t = .next h ∧ h.hashA = hashOf s.params 0#32 (unitsIn es) ∧
      h.hashB = hashOf s.params 1576284489#32 (unitsIn es)

/-- 40 R95: under HIGH_FIRST a unit with high byte h and low byte l, h not 0, folds as the two units h and l do, and a unit below
0x0100 folds one byte. -/
def Obligations.UnitAliasing : Prop :=
  ∀ (a : Word) (h l : Byte),
    (h ≠ 0#8 → foldUnit .highFirst a (h ++ l) =
      foldUnit .highFirst (foldUnit .highFirst a (h.setWidth 16)) (l.setWidth 16)) ∧
    ∀ o : Config.UnitOrder, foldUnit o a (l.setWidth 16) = foldByte a l

/-! ### Locations (41_locations.md) -/

/-- 41 R97, R98: the source's loop, in both readings of its text (90 C5), emits the closed form, which lies in [0, m), and for
m up to 2^31 its sums fit in 33 signed bits. -/
def Obligations.SourceLoopEmitsClosedForm : Prop :=
  ∀ (a b : Word) (m i : Nat), 0 < m →
    sourceLocation a b m i = (location a b m i : Int) ∧ sourceRemNormalized a b m i = (location a b m i : Int) ∧
    (location a b m i : Int) = (a.toInt + i * b.toInt) % m ∧ location a b m i < m ∧
    (m ≤ 2 ^ 31 → -(2 ^ 32) ≤ sourceRem a b m i + b.toInt ∧ sourceRem a b m i + b.toInt < 2 ^ 32)

/-- 41 R99: the unsigned add-and-subtract recurrence of the lanes, and the independent form of one lane, give the closed
form. -/
def Obligations.LaneRecurrenceGivesClosedForm : Prop :=
  ∀ (a b : Word) (m i : Nat), 0 < m →
    laneLocation a b m i = location a b m i ∧
    location a b m i =
      ((a.toInt % m).toNat + i * (b.toInt % m).toNat % m) % m

/-- 41 R100: reading the hashes unsigned gives the same locations when m divides 2^32, and a different one for m = 96 and the
hash 0x8C1261A3. -/
def Obligations.SignednessOfHashes : Prop :=
  (∀ (a b : Word) (m i : Nat), 0 < m → m ∣ 2 ^ 32 → location a b m i = (a.toNat + i * b.toNat) % m) ∧
  location 0x8C1261A3#32 0x6A7E7E80#32 96 0 = 3 ∧ (0x8C1261A3#32).toNat % 96 = 67

/-- 41 R103: two lanes coincide exactly when the difference of their numbers times b is a multiple of m. -/
def Obligations.CoincidingLocations : Prop :=
  ∀ (a b : Word) (m i j : Nat), 0 < m →
    (location a b m i = location a b m j ↔ ((i : Int) - j) * b.toInt % (m : Int) = 0)

/-- 41 R101: the finalization step as HASH, ADD and TEST perform it once their checks pass. -/
def Obligations.FinalizationStep : Prop :=
  ∀ (s : State) (c : Instr), BlockInv s → c ∈ [Instr.hash, Instr.add, Instr.test] → (c = .hash ∨ s.mode = .ready) →
    ∃ t, exec c s = .next t ∧ t.hashA = mix s.params.mixPlan s.laneA ∧ t.hashB = mix s.params.mixPlan s.laneB ∧
      t.laneA = s.laneA ∧ t.laneB = s.laneB ∧ t.keyLen = s.keyLen ∧
      (s.mode ≠ .off → t.locv = true ∧ t.loc.length = s.params.kMax ∧
        ∀ i < s.params.kMax, (t.loc.getD i 0 : Int) =
          if i < s.k.toNat then (t.hashA.toInt + i * t.hashB.toInt) % (s.m.toNat : Int) else 0) ∧
      (s.mode = .off → t.locv = false ∧ t.loc = s.loc)

/-- 41 R102: HASH, word 0x30000000, completes in every mode, finalizes the key (hashes, LOCV, and in a configured mode the
locations), writes nothing else, and a second HASH gives the same state. -/
def Obligations.HashCompletesInEveryMode : Prop :=
  isPlainCommand 3 .hash ∧
  ∀ s : State, BlockInv s → ∃ t, exec .hash s = .next t ∧ exec .hash t = .next t ∧
    t.hashA = mix s.params.mixPlan s.laneA ∧ t.hashB = mix s.params.mixPlan s.laneB ∧
    (t.locv = true ↔ s.mode ≠ .off) ∧
    (s.mode = .off → t.loc = s.loc) ∧
    (s.mode ≠ .off → ∀ i < s.params.kMax, (t.loc.getD i 0 : Int) =
      if i < s.k.toNat then (t.hashA.toInt + i * t.hashB.toInt) % (s.m.toNat : Int) else 0) ∧
    { t with hashA := s.hashA, hashB := s.hashB, loc := s.loc, locv := s.locv } = s

/-! ### Bit storage (42_bit_storage.md) -/

/-- 20 R53: reading a word gives what the last write of it wrote, other words keep their values, and a write, the clearing and
reset keep the canonical form, in which equal contents are equal data. -/
def Obligations.ArrayWordLaws : Prop :=
  (∀ (b : Memory) (w u : Nat) (v : Word), Memory.wf b →
    Memory.wf (b.write w v) ∧ (b.write w v).read u = if u = w then v else b.read u) ∧
  (∀ (b : Memory) (n w : Nat), Memory.wf b →
    Memory.wf (b.clearBelow n) ∧ (b.clearBelow n).read w = if w < n then 0#32 else b.read w) ∧
  (∀ (n : Nat) (cs : List (Nat × Word)), Memory.wf (Memory.ofContents n cs)) ∧
  ∀ a b : Memory, Memory.wf a → Memory.wf b → (∀ w, a.read w = b.read w) → a = b

/-- 42 R104, R105, R106: setBit sets bit i mod 32 of word i div 32 and leaves every other bit alone; testBit reads that bit. -/
def Obligations.SetBitAndTestBit : Prop :=
  ∀ (b : Memory) (i : Nat), Memory.wf b →
    (∀ w j, j < 32 → ((b.setBit i).read w).getLsbD j =
      (decide (w = i / 32 ∧ j = i % 32) || (b.read w).getLsbD j)) ∧
    b.testBit i = (b.read (i / 32)).getLsbD (i % 32)

/-- 42 R107: the parallel set is the OR of each word with the masks of the lanes that target it, in any order of the lanes, and
changes nothing for no lanes. -/
def Obligations.ParallelSetMergesMasks : Prop :=
  ∀ (b : Memory) (ls : List Nat), Memory.wf b →
    (∀ w, (parallelSet b ls).read w = b.read w ||| orMasks ls w) ∧
    (∀ ks, ls.Perm ks → parallelSet b ls = parallelSet b ks) ∧ parallelSet b [] = b

/-- 42 R110, R111: POPCOUNT, word 0x60000000, latches the number of 1 bits of words 0 to nw-1 and nothing else; that number is
at most m, and m at most 2^31; in OFF it is refused. -/
def Obligations.PopcountLatchesSetBits : Prop :=
  isPlainCommand 6 .popcount ∧
  ∀ s : State, BlockInv s →
    (s.mode ≠ .off → ∃ p : Word, exec .popcount s = .next { s with pop := p } ∧
      p.toNat = ((List.range (s.m.toNat / 32)).map fun w =>
        ((List.range 32).map fun j => if (s.buckets.read w).getLsbD j then 1 else 0).sum).sum ∧
      p.toNat ≤ s.m.toNat ∧ s.m.toNat ≤ 2 ^ 31) ∧
    (s.mode = .off → exec .popcount s = .next (s.raiseError .badMode))

/-! ### Filter operations (43_filter_ops.md) -/

/-- 43 R112: ADD, word 0x40000000, finalizes the current key, sets exactly the bits of its k locations and writes nothing but the
hashes, the locations, LOCV and those bits; it is refused unless READY. What finalizing gives is `FinalizationStep`. -/
def Obligations.AddInsertsTheCurrentKey : Prop :=
  isPlainCommand 4 .add ∧
  ∀ s : State, BlockInv s →
    (s.mode = .ready → ∃ t, exec .add s = .next t ∧
      (∀ w j, j < 32 → ((t.buckets.read w).getLsbD j = true ↔ (s.buckets.read w).getLsbD j = true ∨
        ∃ i < s.k.toNat, ((mix s.params.mixPlan s.laneA).toInt + i * (mix s.params.mixPlan s.laneB).toInt) %
          (s.m.toNat : Int) = 32 * w + j)) ∧
      t.hashA = s.finalize.hashA ∧ t.hashB = s.finalize.hashB ∧ t.loc = s.finalize.loc ∧ t.locv = true ∧
      { t with buckets := s.buckets, hashA := s.hashA, hashB := s.hashB, loc := s.loc, locv := s.locv } = s) ∧
    (s.mode ≠ .ready → exec .add s = .next (s.raiseError .badMode))

/-- 43 R113, 42 R108: TEST, word 0x50000000, finalizes the current key, sets HIT exactly when every one of its k bits is set
(always for k = 0), and writes nothing but HIT, the hashes, the locations and LOCV; it is refused unless READY. What finalizing
gives is `FinalizationStep`. -/
def Obligations.TestProbesTheCurrentKey : Prop :=
  isPlainCommand 5 .test ∧
  ∀ s : State, BlockInv s →
    (s.mode = .ready → ∃ t, exec .test s = .next t ∧
      (t.hit = true ↔ ∀ i < s.k.toNat, ∀ w j : Nat, j < 32 →
        ((mix s.params.mixPlan s.laneA).toInt + i * (mix s.params.mixPlan s.laneB).toInt) % (s.m.toNat : Int) =
          32 * w + j → (s.buckets.read w).getLsbD j = true) ∧
      (s.k = 0#8 → t.hit = true) ∧
      t.hashA = s.finalize.hashA ∧ t.hashB = s.finalize.hashB ∧ t.loc = s.finalize.loc ∧ t.locv = true ∧
      { t with hit := s.hit, hashA := s.hashA, hashB := s.hashB, loc := s.loc, locv := s.locv } = s) ∧
    (s.mode ≠ .ready → exec .test s = .next (s.raiseError .badMode))

/-- 43 R115: no false negatives. After an ADD of the key u in READY and any moves with no CONFIG_NEW, CONFIG_LOAD or reset among
them, a TEST whose current key is u succeeds with HIT = 1. -/
def Obligations.NoFalseNegatives : Prop :=
  ∀ (s t r : State) (u : List CodeUnit) (es : List HostEvent), BlockInv s → s.mode = .ready → s.currentKey u →
    exec .add s = .next t → (∀ e ∈ es, keepsFilter e = true) → runAll t es = .next r → r.currentKey u →
    ∃ q, exec .test r = .next q ∧ q.hit = true

/-- 43 R116: adding keys in any order gives the same array, which is the initial one with the bits of all their locations, and so
the same TEST result for every key. -/
def Obligations.AddOrderDoesNotMatter : Prop :=
  ∀ (s : State) (us vs : List (List CodeUnit)), BlockInv s → s.mode = .ready → us.Perm vs →
    ∃ t r, runAll s (assemble (us.map Stmt.addKey)) = .next t ∧ runAll s (assemble (vs.map Stmt.addKey)) = .next r ∧
      t.buckets = r.buckets ∧
      (∀ j, t.buckets.testBit j = true ↔ s.buckets.testBit j = true ∨ ∃ u ∈ us, ∃ i < s.k.toNat,
        location (hashOf s.params seedA u) (hashOf s.params seedB u) s.m.toNat i = j) ∧
      ∀ u, ∃ a b, runAll t (keyEvents u ++ [cmd .test]) = .next a ∧ runAll r (keyEvents u ++ [cmd .test]) = .next b ∧
        a.hit = b.hit

/-- 43 R117: a second ADD of the same key changes nothing at all. -/
def Obligations.AddIsIdempotent : Prop :=
  ∀ s : State, BlockInv s → s.mode = .ready → ∃ t, exec .add s = .next t ∧ exec .add t = .next t

/-- 43 R118: setBits never decreases across an ADD. -/
def Obligations.AddNeverLowersSetBits : Prop :=
  ∀ s t : State, BlockInv s → s.mode = .ready → exec .add s = .next t →
    setBits s.buckets s.nw ≤ setBits t.buckets t.nw

/-! ### Configuration and serialization (44_config_serialization.md) -/

/-- 44 R120: NOP, word 0x00000000, changes nothing, in every mode. -/
def Obligations.NopDoesNothing : Prop :=
  isPlainCommand 0 .nop ∧ ∀ s : State, exec .nop s = .next s

/-- 44 R121, R122, R123: CONFIG_NEW and CONFIG_LOAD, words 0x70000000 OR K and 0x80000000 OR K. With a legal capacity and count:
the smallest multiple of 32 that holds the capacity, the count, cleared visible words, cleared results, the new mode, and nothing
else. With CFG_CAP = 0, CFG_CAP > 32 * W_MAX or K > K_MAX: refused with ERR_BAD_CONFIG. Two clauses are the model's own: that words
at and above m/32 read as before (log 6; 10 R23 calls them not architectural), and that a K above 255, which no command word carries,
is refused like any other above K_MAX (log 17). -/
def Obligations.ConfigBuildsAnEmptyFilter : Prop :=
  isOperandCommand 7 8 .configNew ∧ isOperandCommand 8 8 .configLoad ∧
  ∀ (s : State) (n : Nat) (c : Instr) (md : OpMode), BlockInv s →
    (c, md) ∈ [(.configNew n, .ready), (.configLoad n, .load)] →
    (1 ≤ s.cap.toNat → s.cap.toNat ≤ 32 * s.params.wMax → n ≤ s.params.kMax →
      ∃ t, exec c s = .next t ∧ t.mode = md ∧ t.m.toNat % 32 = 0 ∧ s.cap.toNat ≤ t.m.toNat ∧
        t.m.toNat < s.cap.toNat + 32 ∧ t.k.toNat = n ∧
        (∀ w, t.buckets.read w = if w < t.m.toNat / 32 then 0#32 else s.buckets.read w) ∧
        t.locv = false ∧ t.hit = false ∧ t.pop = 0#32 ∧ t.aidx = 0#32 ∧
        { t with mode := s.mode, m := s.m, k := s.k, buckets := s.buckets, locv := s.locv, hit := s.hit, pop := s.pop,
                 aidx := s.aidx } = s) ∧
    (s.cap = 0#32 ∨ 32 * s.params.wMax < s.cap.toNat ∨ s.params.kMax < n →
      exec c s = .next (s.raiseError .badConfig))

/-- 44 R124: COMMIT, word 0x90000000, turns LOAD into READY and changes nothing else; it is refused in OFF and READY. -/
def Obligations.CommitEndsReconstruction : Prop :=
  isPlainCommand 9 .commit ∧
  ∀ s : State, (s.mode = .load → exec .commit s = .next { s with mode := .ready }) ∧
    (s.mode ≠ .load → exec .commit s = .next (s.raiseError .badMode))

/-- 44 R127: a dump of the filter returns words 0 to nw-1 in order, leaves ARRAY_IDX = nw and changes nothing else. -/
def Obligations.DumpReturnsVisibleWords : Prop :=
  ∀ s : State, BlockInv s → s.mode ≠ .off → ∃ t, runAll s (dumpEvents s.nw) = .next t ∧
    t.outbox = s.outbox ++ (List.range (s.m.toNat / 32)).map s.buckets.read ∧
    t.aidx.toNat = s.m.toNat / 32 ∧
    { t with outbox := s.outbox, aidx := s.aidx, inbox := s.inbox } = s

/-- 44 R128: the round trip. Loading the words a dump of F returned, with F's k, into any block with the same parameters gives a
READY filter with F's m, k and words and no error recorded, and every TEST gives the same HIT on both. -/
def Obligations.SerializationRoundTrip : Prop :=
  ∀ (f f' g : State) (ws : List Word), BlockInv f → f.mode = .ready → BlockInv g → g.params = f.params →
    runAll f (dumpEvents f.nw) = .next f' → f'.outbox = f.outbox ++ ws →
    ∃ h, runAll g (loadEvents f.k.toNat ws) = .next h ∧ h.mode = .ready ∧ h.m = f.m ∧ h.k = f.k ∧
      h.errorRecord = g.errorRecord ∧
      (∀ w < f.m.toNat / 32, h.buckets.read w = f.buckets.read w) ∧
      ∀ u, ∃ a b, runAll f (keyEvents u ++ [cmd .test]) = .next a ∧ runAll h (keyEvents u ++ [cmd .test]) = .next b ∧
        a.hit = b.hit

/-! ### Rules of the whole machine, and frames -/

/-- 10 R21, R22, 60 R139: each mode is entered and left only by the named commands and by reset, and only CONFIG_NEW,
CONFIG_LOAD and reset write m and k. -/
def Obligations.ModeAndSizeChangeOnlyAsNamed : Prop :=
  ∀ (e : HostEvent) (s t : State), perform e s = .next t →
    (t.mode ≠ s.mode →
      (t.mode = .ready ∧ ∃ n, isCommand e (.configNew n)) ∨ (t.mode = .load ∧ ∃ n, isCommand e (.configLoad n)) ∨
      (s.mode = .load ∧ t.mode = .ready ∧ isCommand e .commit) ∨ (t.mode = .off ∧ ∃ cs, e = .reset cs)) ∧
    (t.m ≠ s.m ∨ t.k ≠ s.k →
      (∃ n, isCommand e (.configNew n) ∨ isCommand e (.configLoad n)) ∨ ∃ cs, e = .reset cs)

/-- 10 R33, R34, R35, R41, R44, 70 R155: which moves can change the hash lanes, the finalized hashes and locations, HIT and the
latched population count. -/
def Obligations.ResultsChangeOnlyAsNamed : Prop :=
  ∀ (e : HostEvent) (s t : State), perform e s = .next t → (∀ cs, e ≠ .reset cs) →
    (t.laneA ≠ s.laneA ∨ t.laneB ≠ s.laneB ∨ t.keyLen ≠ s.keyLen →
      isCommand e .keyStart ∨ ∃ u, isCommand e (.keyUnit u)) ∧
    (t.hashA ≠ s.hashA ∨ t.hashB ≠ s.hashB ∨ t.loc ≠ s.loc →
      isCommand e .hash ∨ isCommand e .add ∨ isCommand e .test) ∧
    (t.hit ≠ s.hit → isCommand e .test ∨ ∃ n, isCommand e (.configNew n) ∨ isCommand e (.configLoad n)) ∧
    (t.pop ≠ s.pop → isCommand e .popcount ∨ ∃ n, isCommand e (.configNew n) ∨ isCommand e (.configLoad n)) ∧
    (t.locv ≠ s.locv → isCommand e .hash ∨ isCommand e .add ∨ isCommand e .test ∨
      ∃ n, isCommand e (.configNew n) ∨ isCommand e (.configLoad n))

/-- 10 R30, R36, R39, 20 R48, 70 R157: which moves can change CFG_CAP, ARRAY_IDX, LOC_SEL and the values the host has received.
That no move, a reset included, changes the parameters, the moves still to come or the values received before is the model's
(logs 1, 2, 3 and 7). -/
def Obligations.HostRegistersChangeOnlyAsNamed : Prop :=
  ∀ (e : HostEvent) (s t : State), perform e s = .next t →
    t.params = s.params ∧ t.inbox = s.inbox ∧
    ((∃ o v, e = .read o ∧ t.outbox = s.outbox ++ [v]) ∨ ((∀ o, e ≠ .read o) ∧ t.outbox = s.outbox)) ∧
    ((∀ cs, e ≠ .reset cs) →
      (t.cap ≠ s.cap → ∃ v, e = .write 0x14#8 v) ∧
      (t.aidx ≠ s.aidx → (∃ v, e = .write 0x30#8 v) ∨ e = .read 0x34#8 ∨ (∃ v, e = .write 0x34#8 v) ∨
        ∃ n, isCommand e (.configNew n) ∨ isCommand e (.configLoad n)) ∧
      (t.locSel ≠ s.locSel → ∃ v, e = .write 0x3C#8 v))

/-- 10 R45 item 3, 70 R158: in a READY filter no visible bit changes from 1 to 0, unless the filter is replaced; the filter stays
READY with its m and k. -/
def Obligations.ReadyFilterIsSetOnly : Prop :=
  ∀ (e : HostEvent) (s t : State), BlockInv s → s.mode = .ready → keepsFilter e = true → perform e s = .next t →
    t.mode = .ready ∧ t.m = s.m ∧ t.k = s.k ∧ ∀ j, s.buckets.testBit j = true → t.buckets.testBit j = true

/-- 20 R55: a command that is not ADD, CONFIG_NEW or CONFIG_LOAD leaves every word of the bit array, CFG_CAP, ARRAY_IDX, LOC_SEL,
m and k unchanged. -/
def Obligations.FrameOfCommandsThatStoreNothing : Prop :=
  ∀ (c : Instr) (s t : State), c ≠ .add → (∀ n, c ≠ .configNew n) → (∀ n, c ≠ .configLoad n) → exec c s = .next t →
    (∀ w, t.buckets.read w = s.buckets.read w) ∧ t.cap = s.cap ∧ t.aidx = s.aidx ∧ t.locSel = s.locSel ∧
    t.m = s.m ∧ t.k = s.k ∧ t.outbox = s.outbox ∧ t.params = s.params ∧ t.inbox = s.inbox

/-- 20 R55: the words ADD, CONFIG_NEW, CONFIG_LOAD and an ARRAY_DATA write can change: those of the k locations, computed by the
function ADD itself uses; words 0 to nw'-1 of the new size; the word ARRAY_IDX names. Every other word reads as before. For CONFIG that is the model's
choice: the words at and above nw' are not architectural (10 R23), and the model keeps what they held (log 6). -/
def Obligations.FrameOfStoringMoves : Prop :=
  (∀ (s t : State) (w : Nat), exec .add s = .next t → (∀ l ∈ s.finalize.probes, bitWord l ≠ w) →
    t.buckets.read w = s.buckets.read w) ∧
  (∀ (s t : State) (n w : Nat), exec (.configNew n) s = .next t ∨ exec (.configLoad n) s = .next t →
    roundedCapacity s.cap / 32 ≤ w → t.buckets.read w = s.buckets.read w) ∧
  ∀ (s t : State) (v : Word) (w : Nat), hostWrite 0x34#8 v s = .next t → w ≠ s.aidx.toNat →
    t.buckets.read w = s.buckets.read w
end

