-- ==== Sys2Proof/Laws/State.lean ====
section
/-! SUPPORT. One lemma per field per named update of the state, each true by definition, so that no proof unfolds a record update. -/

namespace Sys2Proof.Machine

/-! ### `State.reply`: A host read changes only what the host has received (20 R48). -/

@[simp] theorem State.reply_mode (s : State) (v : Word) : (s.reply v).mode = s.mode := rfl
@[simp] theorem State.reply_m (s : State) (v : Word) : (s.reply v).m = s.m := rfl
@[simp] theorem State.reply_k (s : State) (v : Word) : (s.reply v).k = s.k := rfl
@[simp] theorem State.reply_buckets (s : State) (v : Word) : (s.reply v).buckets = s.buckets := rfl
@[simp] theorem State.reply_laneA (s : State) (v : Word) : (s.reply v).laneA = s.laneA := rfl
@[simp] theorem State.reply_laneB (s : State) (v : Word) : (s.reply v).laneB = s.laneB := rfl
@[simp] theorem State.reply_keyLen (s : State) (v : Word) : (s.reply v).keyLen = s.keyLen := rfl
@[simp] theorem State.reply_hashA (s : State) (v : Word) : (s.reply v).hashA = s.hashA := rfl
@[simp] theorem State.reply_hashB (s : State) (v : Word) : (s.reply v).hashB = s.hashB := rfl
@[simp] theorem State.reply_loc (s : State) (v : Word) : (s.reply v).loc = s.loc := rfl
@[simp] theorem State.reply_locv (s : State) (v : Word) : (s.reply v).locv = s.locv := rfl
@[simp] theorem State.reply_hit (s : State) (v : Word) : (s.reply v).hit = s.hit := rfl
@[simp] theorem State.reply_pop (s : State) (v : Word) : (s.reply v).pop = s.pop := rfl
@[simp] theorem State.reply_aidx (s : State) (v : Word) : (s.reply v).aidx = s.aidx := rfl
@[simp] theorem State.reply_locSel (s : State) (v : Word) : (s.reply v).locSel = s.locSel := rfl
@[simp] theorem State.reply_cap (s : State) (v : Word) : (s.reply v).cap = s.cap := rfl
@[simp] theorem State.reply_err (s : State) (v : Word) : (s.reply v).err = s.err := rfl
@[simp] theorem State.reply_errMulti (s : State) (v : Word) : (s.reply v).errMulti = s.errMulti := rfl
@[simp] theorem State.reply_errCode (s : State) (v : Word) : (s.reply v).errCode = s.errCode := rfl
@[simp] theorem State.reply_params (s : State) (v : Word) : (s.reply v).params = s.params := rfl
@[simp] theorem State.reply_inbox (s : State) (v : Word) : (s.reply v).inbox = s.inbox := rfl
@[simp] theorem State.reply_outbox (s : State) (v : Word) : (s.reply v).outbox = s.outbox ++ [v] := rfl

/-! ### `State.raiseError`: Recording an error changes only the error record (60 R131). -/

@[simp] theorem State.raiseError_mode (s : State) (c : ErrCode) : (s.raiseError c).mode = s.mode := rfl
@[simp] theorem State.raiseError_m (s : State) (c : ErrCode) : (s.raiseError c).m = s.m := rfl
@[simp] theorem State.raiseError_k (s : State) (c : ErrCode) : (s.raiseError c).k = s.k := rfl
@[simp] theorem State.raiseError_buckets (s : State) (c : ErrCode) : (s.raiseError c).buckets = s.buckets := rfl
@[simp] theorem State.raiseError_laneA (s : State) (c : ErrCode) : (s.raiseError c).laneA = s.laneA := rfl
@[simp] theorem State.raiseError_laneB (s : State) (c : ErrCode) : (s.raiseError c).laneB = s.laneB := rfl
@[simp] theorem State.raiseError_keyLen (s : State) (c : ErrCode) : (s.raiseError c).keyLen = s.keyLen := rfl
@[simp] theorem State.raiseError_hashA (s : State) (c : ErrCode) : (s.raiseError c).hashA = s.hashA := rfl
@[simp] theorem State.raiseError_hashB (s : State) (c : ErrCode) : (s.raiseError c).hashB = s.hashB := rfl
@[simp] theorem State.raiseError_loc (s : State) (c : ErrCode) : (s.raiseError c).loc = s.loc := rfl
@[simp] theorem State.raiseError_locv (s : State) (c : ErrCode) : (s.raiseError c).locv = s.locv := rfl
@[simp] theorem State.raiseError_hit (s : State) (c : ErrCode) : (s.raiseError c).hit = s.hit := rfl
@[simp] theorem State.raiseError_pop (s : State) (c : ErrCode) : (s.raiseError c).pop = s.pop := rfl
@[simp] theorem State.raiseError_aidx (s : State) (c : ErrCode) : (s.raiseError c).aidx = s.aidx := rfl
@[simp] theorem State.raiseError_locSel (s : State) (c : ErrCode) : (s.raiseError c).locSel = s.locSel := rfl
@[simp] theorem State.raiseError_cap (s : State) (c : ErrCode) : (s.raiseError c).cap = s.cap := rfl
@[simp] theorem State.raiseError_err (s : State) (c : ErrCode) : (s.raiseError c).err = true := rfl
@[simp] theorem State.raiseError_errMulti (s : State) (c : ErrCode) : (s.raiseError c).errMulti = (s.err || s.errMulti) := rfl
@[simp] theorem State.raiseError_errCode (s : State) (c : ErrCode) : (s.raiseError c).errCode = if s.err then s.errCode else c := rfl
@[simp] theorem State.raiseError_params (s : State) (c : ErrCode) : (s.raiseError c).params = s.params := rfl
@[simp] theorem State.raiseError_inbox (s : State) (c : ErrCode) : (s.raiseError c).inbox = s.inbox := rfl
@[simp] theorem State.raiseError_outbox (s : State) (c : ErrCode) : (s.raiseError c).outbox = s.outbox := rfl

/-! ### `State.ackErrors`: A STATUS write changes only the error record (10 R28). -/

@[simp] theorem State.ackErrors_mode (s : State) (v : Word) : (s.ackErrors v).mode = s.mode := rfl
@[simp] theorem State.ackErrors_m (s : State) (v : Word) : (s.ackErrors v).m = s.m := rfl
@[simp] theorem State.ackErrors_k (s : State) (v : Word) : (s.ackErrors v).k = s.k := rfl
@[simp] theorem State.ackErrors_buckets (s : State) (v : Word) : (s.ackErrors v).buckets = s.buckets := rfl
@[simp] theorem State.ackErrors_laneA (s : State) (v : Word) : (s.ackErrors v).laneA = s.laneA := rfl
@[simp] theorem State.ackErrors_laneB (s : State) (v : Word) : (s.ackErrors v).laneB = s.laneB := rfl
@[simp] theorem State.ackErrors_keyLen (s : State) (v : Word) : (s.ackErrors v).keyLen = s.keyLen := rfl
@[simp] theorem State.ackErrors_hashA (s : State) (v : Word) : (s.ackErrors v).hashA = s.hashA := rfl
@[simp] theorem State.ackErrors_hashB (s : State) (v : Word) : (s.ackErrors v).hashB = s.hashB := rfl
@[simp] theorem State.ackErrors_loc (s : State) (v : Word) : (s.ackErrors v).loc = s.loc := rfl
@[simp] theorem State.ackErrors_locv (s : State) (v : Word) : (s.ackErrors v).locv = s.locv := rfl
@[simp] theorem State.ackErrors_hit (s : State) (v : Word) : (s.ackErrors v).hit = s.hit := rfl
@[simp] theorem State.ackErrors_pop (s : State) (v : Word) : (s.ackErrors v).pop = s.pop := rfl
@[simp] theorem State.ackErrors_aidx (s : State) (v : Word) : (s.ackErrors v).aidx = s.aidx := rfl
@[simp] theorem State.ackErrors_locSel (s : State) (v : Word) : (s.ackErrors v).locSel = s.locSel := rfl
@[simp] theorem State.ackErrors_cap (s : State) (v : Word) : (s.ackErrors v).cap = s.cap := rfl
@[simp] theorem State.ackErrors_err (s : State) (v : Word) : (s.ackErrors v).err = if v.getLsbD 8 then false else s.err := rfl
@[simp] theorem State.ackErrors_errMulti (s : State) (v : Word) : (s.ackErrors v).errMulti = if v.getLsbD 9 then false else s.errMulti := rfl
@[simp] theorem State.ackErrors_errCode (s : State) (v : Word) : (s.ackErrors v).errCode = if v.getLsbD 8 then .none else s.errCode := rfl
@[simp] theorem State.ackErrors_params (s : State) (v : Word) : (s.ackErrors v).params = s.params := rfl
@[simp] theorem State.ackErrors_inbox (s : State) (v : Word) : (s.ackErrors v).inbox = s.inbox := rfl
@[simp] theorem State.ackErrors_outbox (s : State) (v : Word) : (s.ackErrors v).outbox = s.outbox := rfl

/-! ### `State.finalize`: The finalization step writes the hashes, the locations and LOCV (41 R101). -/

@[simp] theorem State.finalize_mode (s : State) : (s.finalize).mode = s.mode := rfl
@[simp] theorem State.finalize_m (s : State) : (s.finalize).m = s.m := rfl
@[simp] theorem State.finalize_k (s : State) : (s.finalize).k = s.k := rfl
@[simp] theorem State.finalize_buckets (s : State) : (s.finalize).buckets = s.buckets := rfl
@[simp] theorem State.finalize_laneA (s : State) : (s.finalize).laneA = s.laneA := rfl
@[simp] theorem State.finalize_laneB (s : State) : (s.finalize).laneB = s.laneB := rfl
@[simp] theorem State.finalize_keyLen (s : State) : (s.finalize).keyLen = s.keyLen := rfl
@[simp] theorem State.finalize_hashA (s : State) : (s.finalize).hashA = mix s.params.mixPlan s.laneA := rfl
@[simp] theorem State.finalize_hashB (s : State) : (s.finalize).hashB = mix s.params.mixPlan s.laneB := rfl
@[simp] theorem State.finalize_loc (s : State) : (s.finalize).loc = if s.mode.configured then laneLocations s.params.kMax s.k.toNat s.m.toNat (mix s.params.mixPlan s.laneA) (mix s.params.mixPlan s.laneB) else s.loc := rfl
@[simp] theorem State.finalize_locv (s : State) : (s.finalize).locv = s.mode.configured := rfl
@[simp] theorem State.finalize_hit (s : State) : (s.finalize).hit = s.hit := rfl
@[simp] theorem State.finalize_pop (s : State) : (s.finalize).pop = s.pop := rfl
@[simp] theorem State.finalize_aidx (s : State) : (s.finalize).aidx = s.aidx := rfl
@[simp] theorem State.finalize_locSel (s : State) : (s.finalize).locSel = s.locSel := rfl
@[simp] theorem State.finalize_cap (s : State) : (s.finalize).cap = s.cap := rfl
@[simp] theorem State.finalize_err (s : State) : (s.finalize).err = s.err := rfl
@[simp] theorem State.finalize_errMulti (s : State) : (s.finalize).errMulti = s.errMulti := rfl
@[simp] theorem State.finalize_errCode (s : State) : (s.finalize).errCode = s.errCode := rfl
@[simp] theorem State.finalize_params (s : State) : (s.finalize).params = s.params := rfl
@[simp] theorem State.finalize_inbox (s : State) : (s.finalize).inbox = s.inbox := rfl
@[simp] theorem State.finalize_outbox (s : State) : (s.finalize).outbox = s.outbox := rfl

/-! ### `State.configApply`: configApply writes the configuration and clears what described the old filter (44 R121). -/

@[simp] theorem State.configApply_mode (s : State) (n : Nat) (o : OpMode) : (s.configApply n o).mode = o := rfl
@[simp] theorem State.configApply_m (s : State) (n : Nat) (o : OpMode) : (s.configApply n o).m = BitVec.ofNat 32 (roundedCapacity s.cap) := rfl
@[simp] theorem State.configApply_k (s : State) (n : Nat) (o : OpMode) : (s.configApply n o).k = BitVec.ofNat 8 n := rfl
@[simp] theorem State.configApply_buckets (s : State) (n : Nat) (o : OpMode) : (s.configApply n o).buckets = s.buckets.clearBelow (roundedCapacity s.cap / 32) := rfl
@[simp] theorem State.configApply_laneA (s : State) (n : Nat) (o : OpMode) : (s.configApply n o).laneA = s.laneA := rfl
@[simp] theorem State.configApply_laneB (s : State) (n : Nat) (o : OpMode) : (s.configApply n o).laneB = s.laneB := rfl
@[simp] theorem State.configApply_keyLen (s : State) (n : Nat) (o : OpMode) : (s.configApply n o).keyLen = s.keyLen := rfl
@[simp] theorem State.configApply_hashA (s : State) (n : Nat) (o : OpMode) : (s.configApply n o).hashA = s.hashA := rfl
@[simp] theorem State.configApply_hashB (s : State) (n : Nat) (o : OpMode) : (s.configApply n o).hashB = s.hashB := rfl
@[simp] theorem State.configApply_loc (s : State) (n : Nat) (o : OpMode) : (s.configApply n o).loc = s.loc := rfl
@[simp] theorem State.configApply_locv (s : State) (n : Nat) (o : OpMode) : (s.configApply n o).locv = false := rfl
@[simp] theorem State.configApply_hit (s : State) (n : Nat) (o : OpMode) : (s.configApply n o).hit = false := rfl
@[simp] theorem State.configApply_pop (s : State) (n : Nat) (o : OpMode) : (s.configApply n o).pop = 0#32 := rfl
@[simp] theorem State.configApply_aidx (s : State) (n : Nat) (o : OpMode) : (s.configApply n o).aidx = 0#32 := rfl
@[simp] theorem State.configApply_locSel (s : State) (n : Nat) (o : OpMode) : (s.configApply n o).locSel = s.locSel := rfl
@[simp] theorem State.configApply_cap (s : State) (n : Nat) (o : OpMode) : (s.configApply n o).cap = s.cap := rfl
@[simp] theorem State.configApply_err (s : State) (n : Nat) (o : OpMode) : (s.configApply n o).err = s.err := rfl
@[simp] theorem State.configApply_errMulti (s : State) (n : Nat) (o : OpMode) : (s.configApply n o).errMulti = s.errMulti := rfl
@[simp] theorem State.configApply_errCode (s : State) (n : Nat) (o : OpMode) : (s.configApply n o).errCode = s.errCode := rfl
@[simp] theorem State.configApply_params (s : State) (n : Nat) (o : OpMode) : (s.configApply n o).params = s.params := rfl
@[simp] theorem State.configApply_inbox (s : State) (n : Nat) (o : OpMode) : (s.configApply n o).inbox = s.inbox := rfl
@[simp] theorem State.configApply_outbox (s : State) (n : Nat) (o : OpMode) : (s.configApply n o).outbox = s.outbox := rfl

/-! ### `State.facing`: Other moves to come change nothing else. -/

@[simp] theorem State.facing_mode (s : State) (es : List HostEvent) : (s.facing es).mode = s.mode := rfl
@[simp] theorem State.facing_m (s : State) (es : List HostEvent) : (s.facing es).m = s.m := rfl
@[simp] theorem State.facing_k (s : State) (es : List HostEvent) : (s.facing es).k = s.k := rfl
@[simp] theorem State.facing_buckets (s : State) (es : List HostEvent) : (s.facing es).buckets = s.buckets := rfl
@[simp] theorem State.facing_laneA (s : State) (es : List HostEvent) : (s.facing es).laneA = s.laneA := rfl
@[simp] theorem State.facing_laneB (s : State) (es : List HostEvent) : (s.facing es).laneB = s.laneB := rfl
@[simp] theorem State.facing_keyLen (s : State) (es : List HostEvent) : (s.facing es).keyLen = s.keyLen := rfl
@[simp] theorem State.facing_hashA (s : State) (es : List HostEvent) : (s.facing es).hashA = s.hashA := rfl
@[simp] theorem State.facing_hashB (s : State) (es : List HostEvent) : (s.facing es).hashB = s.hashB := rfl
@[simp] theorem State.facing_loc (s : State) (es : List HostEvent) : (s.facing es).loc = s.loc := rfl
@[simp] theorem State.facing_locv (s : State) (es : List HostEvent) : (s.facing es).locv = s.locv := rfl
@[simp] theorem State.facing_hit (s : State) (es : List HostEvent) : (s.facing es).hit = s.hit := rfl
@[simp] theorem State.facing_pop (s : State) (es : List HostEvent) : (s.facing es).pop = s.pop := rfl
@[simp] theorem State.facing_aidx (s : State) (es : List HostEvent) : (s.facing es).aidx = s.aidx := rfl
@[simp] theorem State.facing_locSel (s : State) (es : List HostEvent) : (s.facing es).locSel = s.locSel := rfl
@[simp] theorem State.facing_cap (s : State) (es : List HostEvent) : (s.facing es).cap = s.cap := rfl
@[simp] theorem State.facing_err (s : State) (es : List HostEvent) : (s.facing es).err = s.err := rfl
@[simp] theorem State.facing_errMulti (s : State) (es : List HostEvent) : (s.facing es).errMulti = s.errMulti := rfl
@[simp] theorem State.facing_errCode (s : State) (es : List HostEvent) : (s.facing es).errCode = s.errCode := rfl
@[simp] theorem State.facing_params (s : State) (es : List HostEvent) : (s.facing es).params = s.params := rfl
@[simp] theorem State.facing_inbox (s : State) (es : List HostEvent) : (s.facing es).inbox = es := rfl
@[simp] theorem State.facing_outbox (s : State) (es : List HostEvent) : (s.facing es).outbox = s.outbox := rfl

end Sys2Proof.Machine
end

