-- ==== Sys2Proof/Laws/Memory.lean ====
section
/-! SUPPORT. The laws of the bit array's words: read after write, and that every operation keeps the canonical form. -/

namespace Sys2Proof.Machine

namespace Memory

theorem wf_nil : Memory.wf [] := ⟨List.Pairwise.nil, by simp⟩

theorem wf_tail {c : Nat × Word} {b : Memory} (h : Memory.wf (c :: b)) : Memory.wf b :=
  ⟨(List.pairwise_cons.mp h.1).2, fun d hd => h.2 d (List.mem_cons_of_mem _ hd)⟩

theorem lt_of_wf {c : Nat × Word} {b : Memory} (h : Memory.wf (c :: b)) : ∀ d ∈ b, c.1 < d.1 :=
  (List.pairwise_cons.mp h.1).1

theorem wf_cons {c : Nat × Word} {b : Memory} (hb : Memory.wf b) (hlt : ∀ d ∈ b, c.1 < d.1) (hc : c.2 ≠ 0#32) :
    Memory.wf (c :: b) :=
  ⟨List.pairwise_cons.mpr ⟨hlt, hb.1⟩, by
    intro d hd
    rcases List.mem_cons.mp hd with rfl | hd
    · exact hc
    · exact hb.2 d hd⟩

@[simp] theorem read_nil (w : Nat) : Memory.read [] w = 0#32 := rfl

theorem read_cons (i : Nat) (x : Word) (b : Memory) (w : Nat) :
    Memory.read ((i, x) :: b) w = if i = w then x else Memory.read b w := rfl

/-- A word below every listed index is unlisted. -/
theorem read_below {b : Memory} {w : Nat} (h : ∀ d ∈ b, w < d.1) : Memory.read b w = 0#32 := by
  induction b with
  | nil => rfl
  | cons c b ih =>
    obtain ⟨i, x⟩ := c
    have hi : w < i := h (i, x) (List.mem_cons_self ..)
    rw [read_cons, if_neg (by omega)]
    exact ih fun d hd => h d (List.mem_cons_of_mem _ hd)

/-- What a write lists: the written word when it is not 0, and other words that were listed before. -/
theorem mem_write {b : Memory} {w : Nat} {v : Word} {d : Nat × Word} (h : d ∈ Memory.write b w v) :
    (d = (w, v) ∧ v ≠ 0#32) ∨ d ∈ b := by
  induction b with
  | nil =>
    unfold Memory.write at h
    split at h
    · exact absurd h (List.not_mem_nil)
    · exact .inl ⟨by simpa using h, ‹_›⟩
  | cons c b ih =>
    obtain ⟨i, x⟩ := c
    unfold Memory.write at h
    split at h
    · split at h
      · exact .inr h
      · rcases List.mem_cons.mp h with rfl | h
        · exact .inl ⟨rfl, ‹_›⟩
        · exact .inr h
    · split at h
      · split at h
        · exact .inr (List.mem_cons_of_mem _ h)
        · rcases List.mem_cons.mp h with rfl | h
          · exact .inl ⟨rfl, ‹_›⟩
          · exact .inr (List.mem_cons_of_mem _ h)
      · rcases List.mem_cons.mp h with rfl | h
        · exact .inr (List.mem_cons_self ..)
        · exact (ih h).imp id (List.mem_cons_of_mem _)

/-- A write keeps the canonical form. -/
theorem write_wf {b : Memory} (hb : Memory.wf b) (w : Nat) (v : Word) : Memory.wf (Memory.write b w v) := by
  induction b with
  | nil =>
    unfold Memory.write
    split
    · exact wf_nil
    · exact wf_cons wf_nil (by simp) ‹_›
  | cons c b ih =>
    obtain ⟨i, x⟩ := c
    have hlt := lt_of_wf hb
    unfold Memory.write
    split
    · split
      · exact hb
      · refine wf_cons hb (fun d hd => ?_) ‹_›
        rcases List.mem_cons.mp hd with rfl | hd
        · assumption
        · have := hlt d hd
          simp only at this ⊢
          omega
    · split
      · split
        · exact wf_tail hb
        · refine wf_cons (wf_tail hb) (fun d hd => ?_) ‹_›
          have := hlt d hd
          simp only at this ⊢
          omega
      · refine wf_cons (ih (wf_tail hb)) (fun d hd => ?_) (hb.2 (i, x) (List.mem_cons_self ..))
        rcases mem_write hd with ⟨rfl, _⟩ | hd
        · simp only
          omega
        · exact hlt d hd

/-- Reading the word just written gives it back. -/
theorem read_write_same {b : Memory} (hb : Memory.wf b) (w : Nat) (v : Word) :
    Memory.read (Memory.write b w v) w = v := by
  induction b with
  | nil =>
    unfold Memory.write
    split
    · simp [*]
    · simp [read_cons]
  | cons c b ih =>
    obtain ⟨i, x⟩ := c
    have hlt := lt_of_wf hb
    unfold Memory.write
    split
    · rename_i hwi
      split
      · rw [read_below]
        · simp [*]
        · intro d hd
          rcases List.mem_cons.mp hd with rfl | hd
          · exact hwi
          · have := hlt d hd
            simp only at this
            omega
      · simp [read_cons]
    · split
      · rename_i hwi
        split
        · rw [read_below]
          · simp [*]
          · intro d hd
            have := hlt d hd
            simp only at this
            omega
        · simp [read_cons]
      · rw [read_cons, if_neg (by omega)]
        exact ih (wf_tail hb)

/-- A write leaves every other word alone. -/
theorem read_write_other (b : Memory) (w : Nat) (v : Word) {u : Nat} (h : u ≠ w) :
    Memory.read (Memory.write b w v) u = Memory.read b u := by
  induction b with
  | nil =>
    unfold Memory.write
    split
    · rfl
    · rw [read_cons, if_neg (by omega)]
  | cons c b ih =>
    obtain ⟨i, x⟩ := c
    unfold Memory.write
    split
    · split
      · rfl
      · rw [read_cons, if_neg (by omega)]
    · split
      · split
        · rw [read_cons, if_neg (by omega)]
        · rw [read_cons, read_cons, if_neg (by omega), if_neg (by omega)]
      · rw [read_cons, read_cons, ih]

theorem read_write {b : Memory} (hb : Memory.wf b) (w u : Nat) (v : Word) :
    Memory.read (Memory.write b w v) u = if u = w then v else Memory.read b u := by
  split
  · subst u
    exact read_write_same hb w v
  · exact read_write_other b w v ‹_›

theorem mem_clearBelow {b : Memory} {n : Nat} {d : Nat × Word} : d ∈ Memory.clearBelow b n ↔ d ∈ b ∧ n ≤ d.1 := by
  simp [Memory.clearBelow]

/-- Clearing keeps the canonical form. -/
theorem clearBelow_wf {b : Memory} (hb : Memory.wf b) (n : Nat) : Memory.wf (Memory.clearBelow b n) :=
  ⟨hb.1.filter _, fun _ hd => hb.2 _ (mem_clearBelow.mp hd).1⟩

/-- Clearing sets words 0 to n-1 to 0 and leaves the others alone. -/
theorem read_clearBelow (b : Memory) (n w : Nat) :
    Memory.read (Memory.clearBelow b n) w = if w < n then 0#32 else Memory.read b w := by
  induction b with
  | nil => simp [Memory.clearBelow]
  | cons c b ih =>
    obtain ⟨i, x⟩ := c
    unfold Memory.clearBelow at ih ⊢
    rw [List.filter_cons]
    split
    · rename_i hi
      simp only [decide_eq_true_eq] at hi
      rw [read_cons, read_cons, ih]
      split
      · rw [if_neg (by omega)]
      · rfl
    · rename_i hi
      simp only [decide_eq_true_eq] at hi
      rw [ih, read_cons]
      split
      · rfl
      · rw [if_neg (by omega)]

/-- What a reset leaves in the bit array is in canonical form and within the storage. -/
theorem ofContents_wf (wMax : Nat) (cs : List (Nat × Word)) :
    Memory.wf (Memory.ofContents wMax cs) ∧ ∀ d ∈ Memory.ofContents wMax cs, d.1 < wMax := by
  unfold Memory.ofContents
  suffices h : ∀ b : Memory, Memory.wf b ∧ (∀ d ∈ b, d.1 < wMax) →
      Memory.wf (cs.foldl (fun b c => if c.1 < wMax then Memory.write b c.1 c.2 else b) b) ∧
        ∀ d ∈ cs.foldl (fun b c => if c.1 < wMax then Memory.write b c.1 c.2 else b) b, d.1 < wMax from
    h [] ⟨wf_nil, by simp⟩
  induction cs with
  | nil => exact fun b hb => hb
  | cons c cs ih =>
    intro b hb
    rw [List.foldl_cons]
    refine ih _ ?_
    split
    · refine ⟨write_wf hb.1 _ _, fun d hd => ?_⟩
      rcases mem_write hd with ⟨rfl, _⟩ | hd
      · assumption
      · exact hb.2 d hd
    · exact hb

/-- A listed word is what a read of its index gives. -/
theorem read_of_mem {b : Memory} (hb : Memory.wf b) {d : Nat × Word} (hd : d ∈ b) : Memory.read b d.1 = d.2 := by
  induction b with
  | nil => exact absurd hd List.not_mem_nil
  | cons c b ih =>
    obtain ⟨i, x⟩ := c
    rcases List.mem_cons.mp hd with rfl | hd'
    · simp [read_cons]
    · have := lt_of_wf hb d hd'
      simp only at this
      rw [read_cons, if_neg (by omega)]
      exact ih (wf_tail hb) hd'

/-- A word that reads as something other than 0 is listed. -/
theorem mem_of_read {b : Memory} {w : Nat} (h : Memory.read b w ≠ 0#32) : (w, Memory.read b w) ∈ b := by
  induction b with
  | nil => exact absurd rfl h
  | cons c b ih =>
    obtain ⟨i, x⟩ := c
    rw [read_cons] at h ⊢
    split at h
    · subst w
      simp
    · rw [if_neg (by assumption)]
      exact List.mem_cons_of_mem _ (ih h)

/-- Equal memories are equal data: the canonical form has one list for one content. -/
theorem eq_of_read_eq {a b : Memory} (ha : Memory.wf a) (hb : Memory.wf b)
    (h : ∀ w, Memory.read a w = Memory.read b w) : a = b := by
  induction a generalizing b with
  | nil =>
    cases b with
    | nil => rfl
    | cons d b =>
      have h1 := h d.1
      rw [read_of_mem hb (List.mem_cons_self ..)] at h1
      exact absurd h1.symm (hb.2 d (List.mem_cons_self ..))
  | cons c a ih =>
    cases b with
    | nil =>
      have h1 := h c.1
      rw [read_of_mem ha (List.mem_cons_self ..)] at h1
      exact absurd h1 (ha.2 c (List.mem_cons_self ..))
    | cons d b =>
      obtain ⟨i, x⟩ := c
      obtain ⟨j, y⟩ := d
      have hx := ha.2 (i, x) (List.mem_cons_self ..)
      have hy := hb.2 (j, y) (List.mem_cons_self ..)
      have hla := lt_of_wf ha
      have hlb := lt_of_wf hb
      have hij : i = j := by
        have h1 := h i
        have h2 := h j
        simp only [read_cons, if_true] at h1 h2
        rcases Nat.lt_trichotomy i j with hlt | heq | hlt
        · rw [if_neg (by omega), read_below fun d hd => Nat.lt_trans hlt (hlb d hd)] at h1
          exact absurd h1 hx
        · exact heq
        · rw [if_neg (by omega), read_below fun d hd => Nat.lt_trans hlt (hla d hd)] at h2
          exact absurd h2.symm hy
      subst hij
      have hxy : x = y := by simpa [read_cons] using h i
      subst hxy
      congr 1
      refine ih (wf_tail ha) (wf_tail hb) fun w => ?_
      by_cases hw : i = w
      · subst hw
        rw [read_below hla, read_below hlb]
      · simpa [read_cons, hw] using h w

end Memory

end Sys2Proof.Machine
end

