-- ==== Sys2Proof/Laws/Bits.lean ====
section
/-! SUPPORT. The laws of the bit array's bits: set, test, the parallel set and the population count. -/

namespace Sys2Proof.Machine

/-- mask(i) has exactly bit i mod 32 (42 R104). -/
theorem bitMask_getLsbD (i j : Nat) : (bitMask i).getLsbD j = decide (j = i % 32) := by
  have h : i % 32 < 32 := Nat.mod_lt _ (by omega)
  unfold bitMask
  rw [BitVec.getLsbD_shiftLeft, BitVec.getLsbD_one]
  by_cases hj : j = i % 32
  · subst hj
    simp [h]
  · simp only [hj, decide_false]
    by_cases hlt : j < i % 32
    · simp [hlt]
    · have : j - i % 32 ≠ 0 := by omega
      simp [this]

/-- A word ANDed with a mask is 0 exactly when the masked bit is clear (42 R106). -/
theorem and_bitMask_eq_zero (x : Word) (i : Nat) : x &&& bitMask i = 0#32 ↔ x.getLsbD (i % 32) = false := by
  constructor
  · intro h
    have := congrArg (fun v : Word => v.getLsbD (i % 32)) h
    simpa [BitVec.getLsbD_and, bitMask_getLsbD] using this
  · intro h
    apply BitVec.eq_of_getLsbD_eq
    intro j hj
    rw [BitVec.getLsbD_and, bitMask_getLsbD]
    by_cases hji : j = i % 32
    · subst hji
      simp [h]
    · simp [hji]

/-- testBit reads bit i mod 32 of word i div 32 (20 R52, 42 R106). -/
theorem testBit_eq (b : Memory) (i : Nat) : Memory.testBit b i = (Memory.read b (i / 32)).getLsbD (i % 32) := by
  unfold Memory.testBit bitWord
  rw [Bool.eq_iff_iff, decide_eq_true_eq, ne_eq, and_bitMask_eq_zero]
  simp

theorem setBit_wf {b : Memory} (hb : Memory.wf b) (i : Nat) : Memory.wf (Memory.setBit b i) := Memory.write_wf hb _ _

theorem read_setBit {b : Memory} (hb : Memory.wf b) (i w : Nat) :
    Memory.read (Memory.setBit b i) w =
      if w = bitWord i then Memory.read b w ||| bitMask i else Memory.read b w := by
  unfold Memory.setBit
  rw [Memory.read_write hb]
  split
  · subst w
    rfl
  · rfl

/-- setBit sets its bit and no other (42 R105). -/
theorem testBit_setBit {b : Memory} (hb : Memory.wf b) (i j : Nat) :
    Memory.testBit (Memory.setBit b i) j = (decide (i = j) || Memory.testBit b j) := by
  rw [testBit_eq, testBit_eq, read_setBit hb]
  unfold bitWord
  by_cases hw : j / 32 = i / 32
  · rw [if_pos hw, BitVec.getLsbD_or, bitMask_getLsbD, Bool.or_comm]
    congr 1
    rw [decide_eq_decide]
    omega
  · rw [if_neg hw]
    have : i ≠ j := by
      rintro rfl
      exact hw rfl
    simp [this]

theorem parallelSet_nil (b : Memory) : parallelSet b [] = b := rfl

theorem parallelSet_cons (b : Memory) (l : Nat) (ls : List Nat) :
    parallelSet b (l :: ls) = parallelSet (Memory.setBit b l) ls := rfl

theorem parallelSet_wf {b : Memory} (hb : Memory.wf b) (ls : List Nat) : Memory.wf (parallelSet b ls) := by
  induction ls generalizing b with
  | nil => exact hb
  | cons l ls ih => exact ih (setBit_wf hb l)

/-- The parallel set sets the bits of its locations and no other (42 R107). -/
theorem testBit_parallelSet {b : Memory} (hb : Memory.wf b) (ls : List Nat) (j : Nat) :
    Memory.testBit (parallelSet b ls) j = (decide (j ∈ ls) || Memory.testBit b j) := by
  induction ls generalizing b with
  | nil => simp [parallelSet_nil]
  | cons l ls ih =>
    rw [parallelSet_cons, ih (setBit_wf hb l), testBit_setBit hb]
    rw [Bool.eq_iff_iff]
    simp only [Bool.or_eq_true, decide_eq_true_eq, List.mem_cons, eq_comm (a := l)]
    tauto

/-- A word that no location falls in keeps its value (42 R107). -/
theorem read_parallelSet_untouched (b : Memory) (ls : List Nat) {w : Nat} (h : ∀ l ∈ ls, bitWord l ≠ w) :
    Memory.read (parallelSet b ls) w = Memory.read b w := by
  induction ls generalizing b with
  | nil => rfl
  | cons l ls ih =>
    rw [parallelSet_cons, ih _ fun x hx => h x (List.mem_cons_of_mem _ hx)]
    exact Memory.read_write_other _ _ _ (Ne.symm (h l (List.mem_cons_self ..)))

/-- What the parallel set lists lies in a listed word or in the word of a location. -/
theorem mem_parallelSet {b : Memory} {ls : List Nat} {d : Nat × Word} (h : d ∈ parallelSet b ls) :
    (∃ l ∈ ls, d.1 = bitWord l) ∨ ∃ c ∈ b, d.1 = c.1 := by
  induction ls generalizing b with
  | nil => exact .inr ⟨d, h, rfl⟩
  | cons l ls ih =>
    rcases ih h with ⟨x, hx, hd⟩ | ⟨c, hc, hd⟩
    · exact .inl ⟨x, List.mem_cons_of_mem _ hx, hd⟩
    · rcases Memory.mem_write hc with ⟨rfl, _⟩ | hc
      · exact .inl ⟨l, List.mem_cons_self .., hd⟩
      · exact .inr ⟨c, hc, hd⟩

/-- Two memories in canonical form with the same bits are the same data. -/
theorem eq_of_testBit_eq {a b : Memory} (ha : Memory.wf a) (hb : Memory.wf b)
    (h : ∀ j, Memory.testBit a j = Memory.testBit b j) : a = b := by
  refine Memory.eq_of_read_eq ha hb fun w => ?_
  apply BitVec.eq_of_getLsbD_eq
  intro j hj
  have := h (32 * w + j)
  rw [testBit_eq, testBit_eq] at this
  rwa [show (32 * w + j) / 32 = w by omega, show (32 * w + j) % 32 = j by omega] at this

theorem popcountWord_le (w : Word) : popcountWord w ≤ 32 := by
  unfold popcountWord
  exact (List.length_filter_le _ _).trans (by simp)

theorem popcountWord_zero : popcountWord 0#32 = 0 := by
  simp [popcountWord]

theorem setBits_succ (b : Memory) (n : Nat) : setBits b (n + 1) = setBits b n + popcountWord (Memory.read b n) := by
  simp [setBits, List.range_succ]

/-- setBits over n words is at most 32 n (42 R110). -/
theorem setBits_le (b : Memory) (n : Nat) : setBits b n ≤ 32 * n := by
  induction n with
  | zero => simp [setBits]
  | succ n ih =>
    rw [setBits_succ]
    have := popcountWord_le (Memory.read b n)
    omega

end Sys2Proof.Machine
end

