-- ==== Sys2Proof/Laws/Decode.lean ====
section
/-! SUPPORT. The laws of the command-word fields: what the opcode, the operands and the reserved bits are as numbers, and when a
word decodes. -/

namespace Sys2Proof

/-- OP is the word divided by 2^28 (30 R69). -/
theorem opField_eq (v : Word) : opField v = v.toNat / 2 ^ 28 := by
  unfold opField
  rw [BitVec.extractLsb'_toNat]
  have := v.isLt
  omega

/-- K is the word mod 2^8 (30 R73). -/
theorem kField_eq (v : Word) : kField v = v.toNat % 256 := by
  unfold kField
  rw [BitVec.extractLsb'_toNat]
  simp

/-- UNIT is the word mod 2^16 (30 R73). -/
theorem unitField_eq (v : Word) : unitField v = BitVec.ofNat 16 v.toNat := by
  unfold unitField
  apply BitVec.eq_of_toNat_eq
  rw [BitVec.extractLsb'_toNat]
  simp

/-- Bits 27 to `lo` of a word are clear exactly when its AND with their mask is 0 (30 R70 to R72). -/
theorem and_reserved_eq_zero (v : Word) {lo : Nat} (hlo : lo ≤ 28) :
    v &&& BitVec.ofNat 32 (2 ^ 28 - 2 ^ lo) = 0#32 ↔ v.toNat % 2 ^ 28 / 2 ^ lo = 0 := by
  rw [← BitVec.toNat_inj, BitVec.toNat_and]
  have h : 2 ^ 28 - 2 ^ lo = (2 ^ (28 - lo) - 1) <<< lo := by
    rw [Nat.shiftLeft_eq, Nat.sub_mul, ← pow_add]
    simp [hlo]
  have hlt : 2 ^ 28 - 2 ^ lo < 2 ^ 32 := lt_of_le_of_lt (Nat.sub_le _ _) (by norm_num)
  rw [BitVec.toNat_ofNat, Nat.mod_eq_of_lt hlt, h]
  have key : v.toNat &&& (2 ^ (28 - lo) - 1) <<< lo = (v.toNat % 2 ^ 28 / 2 ^ lo) <<< lo := by
    apply Nat.eq_of_testBit_eq
    intro j
    rw [Nat.testBit_and, Nat.testBit_shiftLeft, Nat.testBit_shiftLeft, Nat.testBit_div_two_pow,
      Nat.testBit_mod_two_pow, Nat.testBit_two_pow_sub_one]
    by_cases hj : lo ≤ j
    · have : (j - lo < 28 - lo) ↔ j < 28 := by omega
      simp only [hj, decide_true, Bool.true_and, this]
      rw [Nat.sub_add_cancel hj, Bool.and_comm]
    · simp [hj]
  rw [key, Nat.shiftLeft_eq]
  simp

/-- The reserved bits of a word are clear exactly when nothing is left between its operand and its opcode (30 R70 to R72). -/
theorem reserved_clear_iff (v : Word) : v &&& rsvdMask (opField v) = 0#32 ↔
    v.toNat % 2 ^ 28 / (if opField v = 2 then 2 ^ 16 else if opField v = 7 ∨ opField v = 8 then 2 ^ 8 else 2 ^ 0) = 0 := by
  unfold rsvdMask
  split
  · exact and_reserved_eq_zero (lo := 16) v (by omega)
  · split
    · exact and_reserved_eq_zero (lo := 8) v (by omega)
    · exact and_reserved_eq_zero (lo := 0) v (by omega)

/-- Exactly the opcodes 0xA and above have no command (30 R74, R75). -/
theorem commandOf_eq_none {op : Nat} {v : Word} : commandOf op v = none ↔ 10 ≤ op := by
  constructor
  · intro h
    by_contra hc
    have : op < 10 := by omega
    interval_cases op <;> simp [commandOf] at h
  · intro h
    unfold commandOf
    split <;> first | omega | rfl

/-- When a word decodes to a command (30 R79). -/
theorem decode_ok_iff (v : Word) (i : Instr) :
    decode v = .ok i ↔ commandOf (opField v) v = some i ∧ v &&& rsvdMask (opField v) = 0#32 := by
  unfold decode
  cases commandOf (opField v) v with
  | none => simp
  | some j =>
    simp only [Option.some.injEq]
    split <;> simp_all

/-- When a word is rejected for its opcode (30 R75). -/
theorem decode_illegalOp_iff (v : Word) : decode v = .error .illegalOp ↔ 10 ≤ opField v := by
  rw [← commandOf_eq_none (v := v)]
  unfold decode
  cases commandOf (opField v) v with
  | none => simp
  | some j =>
    simp only
    split <;> simp

/-- When a word is rejected for a reserved bit (30 R76). -/
theorem decode_rsvdField_iff (v : Word) :
    decode v = .error .rsvdField ↔ opField v < 10 ∧ v &&& rsvdMask (opField v) ≠ 0#32 := by
  have h := commandOf_eq_none (op := opField v) (v := v)
  unfold decode
  cases hc : commandOf (opField v) v with
  | none => simp [h.mp hc]
  | some j =>
    have : ¬ 10 ≤ opField v := fun hx => by simp [h.mpr hx] at hc
    simp only
    split <;> simp_all

/-- A word built from an opcode and an operand below its reserved bits, as a number (30 R81). -/
theorem opcode_or_operand_toNat {c x : Nat} (hc : c < 16) (hx : x < 2 ^ 28) :
    (BitVec.ofNat 32 (c * 2 ^ 28) ||| BitVec.ofNat 32 x).toNat = c * 2 ^ 28 + x := by
  rw [BitVec.toNat_or, BitVec.toNat_ofNat, BitVec.toNat_ofNat, Nat.mod_eq_of_lt (by omega),
    Nat.mod_eq_of_lt (by omega), Nat.mul_comm, Nat.two_pow_add_eq_or_of_lt hx]

/-- The opcode of each command (30 R74). -/
def Instr.opcode : Instr → Nat
  | .nop => 0
  | .keyStart => 1
  | .keyUnit _ => 2
  | .hash => 3
  | .add => 4
  | .test => 5
  | .popcount => 6
  | .configNew _ => 7
  | .configLoad _ => 8
  | .commit => 9

/-- A command of opcode op comes from that opcode alone (30 R69). -/
theorem opcode_of_commandOf {op : Nat} {v : Word} {i : Instr} (h : commandOf op v = some i) : i.opcode = op := by
  have hlt : op < 10 := by
    by_contra hx
    rw [commandOf_eq_none.mpr (by omega)] at h
    cases h
  interval_cases op <;> cases h <;> rfl

/-- A word that decodes has its command's opcode. -/
theorem opField_of_decode {v : Word} {i : Instr} (h : decode v = .ok i) : opField v = i.opcode :=
  (opcode_of_commandOf ((decode_ok_iff v i).mp h).1).symm

end Sys2Proof
end

