-- ==== Sys2Proof/Laws/Locations.lean ====
section
/-! SUPPORT. The laws of the location generator. -/

namespace Sys2Proof.Machine

/-- A location is the Euclidean remainder, as an integer (41 R98). -/
theorem location_cast (a b : Word) {m : Nat} (hm : 0 < m) (i : Nat) :
    (location a b m i : Int) = (a.toInt + (i : Int) * b.toInt) % (m : Int) := by
  unfold location
  rw [Int.toNat_of_nonneg]
  exact Int.emod_nonneg _ (by omega)

/-- Every location is below m (10 R45 item 2). -/
theorem location_lt (a b : Word) {m : Nat} (hm : 0 < m) (i : Nat) : location a b m i < m := by
  have h := location_cast a b hm i
  have := Int.emod_lt_of_pos (a.toInt + (i : Int) * b.toInt) (b := (m : Int)) (by omega)
  omega

@[simp] theorem laneLocations_length (kMax k m : Nat) (a b : Word) : (laneLocations kMax k m a b).length = kMax := by
  simp [laneLocations]

theorem laneLocations_getElem? (kMax k m : Nat) (a b : Word) {i : Nat} (h : i < kMax) :
    (laneLocations kMax k m a b)[i]? = some (if i < k then location a b m i else 0) := by
  simp [laneLocations, h]

/-- The lanes in use hold the first k locations (41 R101). -/
theorem laneLocations_take {kMax k : Nat} (h : k ≤ kMax) (m : Nat) (a b : Word) :
    (laneLocations kMax k m a b).take k = (List.range k).map (location a b m) := by
  unfold laneLocations
  rw [← List.map_take, List.take_range, Nat.min_eq_left h]
  apply List.map_congr_left
  intro i hi
  simp [List.mem_range.mp hi]

/-- The probes of a finalized key in a filter whose size is in range (43 R112). -/
theorem finalize_probes {s : State} (hc : s.mode.configured = true) (hk : s.k.toNat ≤ s.params.kMax) :
    s.finalize.probes =
      (List.range s.k.toNat).map
        (location (mix s.params.mixPlan s.laneA) (mix s.params.mixPlan s.laneB) s.m.toNat) := by
  unfold State.probes
  rw [State.finalize_loc, if_pos hc, State.finalize_k]
  exact laneLocations_take hk _ _ _

end Sys2Proof.Machine
end

