-- ==== Sys2Proof/Laws/Step.lean ====
section
/-! SUPPORT. What one move of the outside world can do, said once (`Move`, `perform_move`), and the laws of runs. Later proofs about
steps take cases on `Move`. -/

namespace Sys2Proof.Machine

/-! ### The register window -/

/-- The offset of a register names it (10 R16). -/
@[simp] theorem regAt_regOffset (r : Reg) : regAt (regOffset r) = some r := by cases r <;> rfl

/-- An offset that names a register is that register's offset (10 R16). -/
theorem regOffset_of_regAt {o : BitVec 8} {r : Reg} (h : regAt o = some r) : regOffset r = o := by
  have key : ∀ o : BitVec 8, ∀ q ∈ regAt o, regOffset q = o := by decide
  exact key o r h

theorem regAt_eq_none {o : BitVec 8} (h : o.toNat % 4 ≠ 0 ∨ 0x44 ≤ o.toNat) : regAt o = none := by
  have key : ∀ o : BitVec 8, (o.toNat % 4 ≠ 0 ∨ 0x44 ≤ o.toNat) → regAt o = none := by decide
  exact key o h

theorem regAt_isSome {o : BitVec 8} (h4 : o.toNat % 4 = 0) (h : o.toNat < 0x44) : ∃ r, regAt o = some r := by
  have key : ∀ o : BitVec 8, o.toNat % 4 = 0 → o.toNat < 0x44 → (regAt o).isSome := by decide
  exact Option.isSome_iff_exists.mp (key o h4 h)

@[simp] theorem perform_read_reg (r : Reg) (s : State) : perform (.read (regOffset r)) s = readReg r s := by
  simp [perform, hostRead]

@[simp] theorem perform_write_reg (r : Reg) (v : Word) (s : State) :
    perform (.write (regOffset r) v) s = writeReg r v s := by
  simp [perform, hostWrite]

/-! ### The shared guard -/

theorem onFilter_ok {s : State} (h : s.geometryOk = true) (t : State) : s.onFilter t = .next t := by
  simp [State.onFilter, h]

theorem onFilter_next {s t u : State} (h : s.onFilter t = .next u) : s.geometryOk = true ∧ u = t := by
  unfold State.onFilter at h
  split at h
  · exact ⟨‹_›, by injection h with h; exact h.symm⟩
  · cases h

/-- The sizes a filter has (10 R22). -/
theorem geometryOk_iff (s : State) : s.geometryOk = true ↔
    s.m.toNat % 32 = 0 ∧ 32 ≤ s.m.toNat ∧ s.m.toNat ≤ 32 * s.params.wMax ∧ s.k.toNat ≤ s.params.kMax := by
  simp [State.geometryOk, and_assoc]

theorem configAccepts_iff (n : Nat) (s : State) : s.configAccepts n = true ↔
    s.cap ≠ 0#32 ∧ s.cap.toNat ≤ 32 * s.params.wMax ∧ n ≤ s.params.kMax := by
  simp [State.configAccepts, and_assoc]

theorem params_valid_iff (p : Config.Params) : p.valid = true ↔
    1 ≤ p.kMax ∧ p.kMax ≤ 255 ∧ 1 ≤ p.wMax ∧ p.wMax ≤ 67108864 := by
  simp [Config.Params.valid, and_assoc]

/-! ### What a move can do -/

/-- What a command can do when it answers a next state: refused with one error, or its own effect under its own conditions. -/
inductive CommandMove (s : State) : Instr → State → Prop where
  | nop : CommandMove s .nop s
  | keyStart : CommandMove s .keyStart { s with laneA := hashInit seedA, laneB := hashInit seedB, keyLen := 0#32 }
  | keyUnit (u : CodeUnit) : CommandMove s (.keyUnit u)
      { s with
        laneA := foldUnit s.params.unitOrder s.laneA u
        laneB := foldUnit s.params.unitOrder s.laneB u
        keyLen := s.keyLen + 1#32 }
  | hash (h : s.mode.configured = true → s.geometryOk = true) : CommandMove s .hash s.finalize
  | addRefused (h : s.mode ≠ .ready) : CommandMove s .add (s.raiseError .badMode)
  | add (h : s.mode = .ready) (g : s.geometryOk = true) :
      CommandMove s .add { s.finalize with buckets := parallelSet s.buckets s.finalize.probes }
  | testRefused (h : s.mode ≠ .ready) : CommandMove s .test (s.raiseError .badMode)
  | test (h : s.mode = .ready) (g : s.geometryOk = true) :
      CommandMove s .test { s.finalize with hit := parallelTest s.buckets s.finalize.probes }
  | popcountRefused (h : s.mode = .off) : CommandMove s .popcount (s.raiseError .badMode)
  | popcount (h : s.mode ≠ .off) (g : s.geometryOk = true) :
      CommandMove s .popcount { s with pop := BitVec.ofNat 32 (setBits s.buckets s.nw) }
  | configNewRefused (n : Nat) (h : s.configAccepts n = false) : CommandMove s (.configNew n) (s.raiseError .badConfig)
  | configNew (n : Nat) (h : s.configAccepts n = true) : CommandMove s (.configNew n) (s.configApply n .ready)
  | configLoadRefused (n : Nat) (h : s.configAccepts n = false) : CommandMove s (.configLoad n) (s.raiseError .badConfig)
  | configLoad (n : Nat) (h : s.configAccepts n = true) : CommandMove s (.configLoad n) (s.configApply n .load)
  | commitRefused (h : s.mode ≠ .load) : CommandMove s .commit (s.raiseError .badMode)
  | commit (h : s.mode = .load) : CommandMove s .commit { s with mode := .ready }

theorem exec_move {i : Instr} {s t : State} (h : exec i s = .next t) : CommandMove s i t := by
  cases i with
  | nop =>
    cases h
    exact .nop
  | keyStart =>
    cases h
    exact .keyStart
  | keyUnit u =>
    cases h
    exact .keyUnit u
  | hash =>
    change execHash s = .next t at h
    unfold execHash at h
    split at h
    · obtain ⟨g, rfl⟩ := onFilter_next h
      exact .hash fun _ => g
    · cases h
      exact .hash fun hc => absurd hc ‹_›
  | add =>
    change execAdd s = .next t at h
    unfold execAdd at h
    split at h
    · cases h
      exact .addRefused ‹_›
    · obtain ⟨g, rfl⟩ := onFilter_next h
      exact .add (by simpa using ‹¬ s.mode ≠ .ready›) g
  | test =>
    change execTest s = .next t at h
    unfold execTest at h
    split at h
    · cases h
      exact .testRefused ‹_›
    · obtain ⟨g, rfl⟩ := onFilter_next h
      exact .test (by simpa using ‹¬ s.mode ≠ .ready›) g
  | popcount =>
    change execPopcount s = .next t at h
    unfold execPopcount at h
    split at h
    · cases h
      exact .popcountRefused ‹_›
    · obtain ⟨g, rfl⟩ := onFilter_next h
      exact .popcount ‹_› g
  | configNew n =>
    change (if s.configAccepts n then _ else _) = _ at h
    split at h
    · cases h
      exact .configNew n ‹_›
    · cases h
      exact .configNewRefused n (by simpa using ‹¬ s.configAccepts n = true›)
  | configLoad n =>
    change (if s.configAccepts n then _ else _) = _ at h
    split at h
    · cases h
      exact .configLoad n ‹_›
    · cases h
      exact .configLoadRefused n (by simpa using ‹¬ s.configAccepts n = true›)
  | commit =>
    change execCommit s = .next t at h
    unfold execCommit at h
    split at h
    · cases h
      exact .commitRefused ‹_›
    · cases h
      exact .commit (by simpa using ‹¬ s.mode ≠ .load›)

/-- What a move can do when it answers a next state. -/
inductive Move (s : State) : HostEvent → State → Prop where
  | readRefused {o : BitVec 8} (h : regAt o = none) : Move s (.read o) (s.refuseRead .access)
  | writeRefused {o : BitVec 8} (v : Word) (h : regAt o = none) : Move s (.write o v) (s.raiseError .access)
  | readValue (r : Reg) (h : r ≠ .arrayData) : Move s (.read (regOffset r)) (s.reply (s.regValue r))
  | readArrayOff (h : s.mode = .off) : Move s (.read (regOffset .arrayData)) (s.refuseRead .badMode)
  | readArrayRange (h : s.mode ≠ .off) (hi : s.nw ≤ s.aidx.toNat) :
      Move s (.read (regOffset .arrayData)) (s.refuseRead .indexRange)
  | readArray (h : s.mode ≠ .off) (hi : s.aidx.toNat < s.nw) (g : s.geometryOk = true) :
      Move s (.read (regOffset .arrayData)) { s.reply (s.buckets.read s.aidx.toNat) with aidx := s.aidx + 1#32 }
  | writeReadOnly (r : Reg) (v : Word)
      (h : r ∉ [Reg.status, Reg.cmd, Reg.cfgCap, Reg.arrayIdx, Reg.arrayData, Reg.locSel]) :
      Move s (.write (regOffset r) v) s
  | writeStatus (v : Word) : Move s (.write (regOffset .status) v) (s.ackErrors v)
  | writeCap (v : Word) : Move s (.write (regOffset .cfgCap) v) { s with cap := v }
  | writeIdx (v : Word) : Move s (.write (regOffset .arrayIdx) v) { s with aidx := v }
  | writeLocSel (v : Word) : Move s (.write (regOffset .locSel) v) { s with locSel := v.extractLsb' 0 8 }
  | writeArrayOff (v : Word) (h : s.mode = .off) :
      Move s (.write (regOffset .arrayData) v) (s.raiseError .badMode)
  | writeArrayReady (v : Word) (h : s.mode = .ready) :
      Move s (.write (regOffset .arrayData) v) (s.raiseError .readOnly)
  | writeArrayRange (v : Word) (h : s.mode = .load) (hi : s.nw ≤ s.aidx.toNat) :
      Move s (.write (regOffset .arrayData) v) (s.raiseError .indexRange)
  | writeArray (v : Word) (h : s.mode = .load) (hi : s.aidx.toNat < s.nw) (g : s.geometryOk = true) :
      Move s (.write (regOffset .arrayData) v)
        { s with buckets := s.buckets.write s.aidx.toNat v, aidx := s.aidx + 1#32 }
  | badCommand (v : Word) (e : DecodeError) (h : decode v = .error e) :
      Move s (.write (regOffset .cmd) v) (s.raiseError (decodeErrCode e))
  | command (v : Word) (i : Instr) (t : State) (h : decode v = .ok i) (m : CommandMove s i t) :
      Move s (.write (regOffset .cmd) v) t
  | reset (cs : List (Nat × Word)) : Move s (.reset cs) (s.applyReset cs)

theorem perform_move {e : HostEvent} {s t : State} (h : perform e s = .next t) : Move s e t := by
  cases e with
  | read o =>
    cases hr : regAt o with
    | none =>
      simp only [perform, hostRead, hr] at h
      cases h
      exact .readRefused hr
    | some r =>
      obtain rfl := regOffset_of_regAt hr
      rw [perform_read_reg] at h
      by_cases hd : r = .arrayData
      · subst hd
        change readArrayData s = .next t at h
        unfold readArrayData at h
        split at h
        · cases h
          exact .readArrayOff ‹_›
        · split at h
          · cases h
            exact .readArrayRange ‹_› ‹_›
          · obtain ⟨g, rfl⟩ := onFilter_next h
            exact .readArray ‹_› (by omega) g
      · have : readReg r s = .next (s.reply (s.regValue r)) := by
          cases r <;> first | rfl | exact absurd rfl hd
        rw [this] at h
        cases h
        exact .readValue r hd
  | write o v =>
    cases hr : regAt o with
    | none =>
      simp only [perform, hostWrite, hr] at h
      cases h
      exact .writeRefused v hr
    | some r =>
      obtain rfl := regOffset_of_regAt hr
      rw [perform_write_reg] at h
      by_cases hro : r ∈ [Reg.status, Reg.cmd, Reg.cfgCap, Reg.arrayIdx, Reg.arrayData, Reg.locSel]
      · simp only [List.mem_cons, List.not_mem_nil, or_false] at hro
        rcases hro with rfl | rfl | rfl | rfl | rfl | rfl
        · cases h
          exact .writeStatus v
        · change runCommand v s = .next t at h
          unfold runCommand at h
          split at h
          · exact .command v _ t ‹_› (exec_move h)
          · cases h
            exact .badCommand v _ ‹_›
        · cases h
          exact .writeCap v
        · cases h
          exact .writeIdx v
        · change writeArrayData v s = .next t at h
          unfold writeArrayData at h
          split at h
          · cases h
            exact .writeArrayOff v ‹_›
          · split at h
            · cases h
              exact .writeArrayReady v ‹_›
            · have hl : s.mode = .load := by
                cases hm : s.mode <;> simp_all
              split at h
              · cases h
                exact .writeArrayRange v hl ‹_›
              · obtain ⟨g, rfl⟩ := onFilter_next h
                exact .writeArray v hl (by omega) g
        · cases h
          exact .writeLocSel v
      · have : writeReg r v s = .next s := by
          cases r <;> first | rfl | exact absurd (by simp) hro
        rw [this] at h
        cases h
        exact .writeReadOnly r v hro
  | reset cs =>
    cases h
    exact .reset cs

/-! ### Moves do not look at the moves still to come -/

theorem exec_facing {i : Instr} {s t : State} (h : exec i s = .next t) (es : List HostEvent) :
    exec i (s.facing es) = .next (t.facing es) := by
  have hm := exec_move h
  clear h
  cases hm with
  | nop => rfl
  | keyStart => rfl
  | keyUnit u => rfl
  | hash hg =>
    change execHash _ = _
    unfold execHash
    split
    · exact onFilter_ok (s := s.facing es) (hg ‹_›) _
    · rfl
  | addRefused h => exact if_pos h
  | add h g =>
    change (if s.mode ≠ .ready then _ else State.onFilter (s.facing es) _) = _
    rw [if_neg (by simpa using h)]
    exact onFilter_ok (s := s.facing es) g _
  | testRefused h => exact if_pos h
  | test h g =>
    change (if s.mode ≠ .ready then _ else State.onFilter (s.facing es) _) = _
    rw [if_neg (by simpa using h)]
    exact onFilter_ok (s := s.facing es) g _
  | popcountRefused h => exact if_pos h
  | popcount h g =>
    change (if s.mode = .off then _ else State.onFilter (s.facing es) _) = _
    rw [if_neg h]
    exact onFilter_ok (s := s.facing es) g _
  | configNewRefused n h => exact if_neg (by change ¬ s.configAccepts n = true; simp [h])
  | configNew n h => exact if_pos h
  | configLoadRefused n h => exact if_neg (by change ¬ s.configAccepts n = true; simp [h])
  | configLoad n h => exact if_pos h
  | commitRefused h => exact if_pos h
  | commit h => exact if_neg (by simpa using h)

theorem exec_inbox {i : Instr} {s t : State} (h : exec i s = .next t) : t.inbox = s.inbox := by
  cases exec_move h <;> rfl

/-- Every move leaves the moves still to come alone. -/
theorem perform_inbox {e : HostEvent} {s t : State} (h : perform e s = .next t) : t.inbox = s.inbox := by
  cases perform_move h with
  | command v i t hd m => cases m <;> rfl
  | _ => rfl

/-- No move changes the parameters. -/
theorem perform_params {e : HostEvent} {s t : State} (h : perform e s = .next t) : t.params = s.params := by
  cases perform_move h with
  | command v i t hd m => cases m <;> rfl
  | _ => rfl

theorem perform_facing {e : HostEvent} {s t : State} (h : perform e s = .next t) (es : List HostEvent) :
    perform e (s.facing es) = .next (t.facing es) := by
  cases perform_move h with
  | readRefused hr => simp only [perform, hostRead, hr]; rfl
  | writeRefused v hr => simp only [perform, hostWrite, hr]; rfl
  | readValue r hd =>
    rw [perform_read_reg]
    cases r <;> first | rfl | exact absurd rfl hd
  | readArrayOff hm =>
    rw [perform_read_reg]
    exact if_pos hm
  | readArrayRange hm hi =>
    rw [perform_read_reg]
    exact (if_neg hm).trans (if_pos hi)
  | readArray hm hi g =>
    rw [perform_read_reg]
    refine (if_neg hm).trans ((if_neg ?_).trans (onFilter_ok (s := s.facing es) g _))
    change ¬ s.nw ≤ s.aidx.toNat
    omega
  | writeReadOnly r v hro =>
    rw [perform_write_reg]
    cases r <;> first | rfl | exact absurd (by simp) hro
  | writeStatus v => rfl
  | writeCap v => rfl
  | writeIdx v => rfl
  | writeLocSel v => rfl
  | writeArrayOff v hm =>
    rw [perform_write_reg]
    exact if_pos hm
  | writeArrayReady v hm =>
    rw [perform_write_reg]
    refine (if_neg ?_).trans (if_pos hm)
    change ¬ s.mode = .off
    simp [hm]
  | writeArrayRange v hm hi =>
    rw [perform_write_reg]
    refine (if_neg ?_).trans ((if_neg ?_).trans (if_pos hi))
    · change ¬ s.mode = .off
      simp [hm]
    · change ¬ s.mode = .ready
      simp [hm]
  | writeArray v hm hi g =>
    rw [perform_write_reg]
    refine (if_neg ?_).trans ((if_neg ?_).trans ((if_neg ?_).trans (onFilter_ok (s := s.facing es) g _)))
    · change ¬ s.mode = .off
      simp [hm]
    · change ¬ s.mode = .ready
      simp [hm]
    · change ¬ s.nw ≤ s.aidx.toNat
      omega
  | badCommand v e hd =>
    rw [perform_write_reg]
    change runCommand v _ = _
    simp only [runCommand, hd]
    rfl
  | command v i t hd m =>
    rw [perform_write_reg] at h ⊢
    change runCommand v _ = _ at h ⊢
    simp only [runCommand, hd] at h ⊢
    exact exec_facing h es
  | reset cs => rfl

theorem facing_self (s : State) : s.facing s.inbox = s := rfl

@[simp] theorem facing_facing (s : State) (es fs : List HostEvent) : (s.facing es).facing fs = s.facing fs := rfl

/-! ### Steps and runs -/

theorem step_nil {s : State} (h : s.inbox = []) : step s = .next s := by
  simp [step, accept, h]

/-- A step performs the oldest move (20 R61). -/
theorem step_cons {s : State} {e : HostEvent} {es : List HostEvent} (h : s.inbox = e :: es) :
    step s = perform e (s.facing es) := by
  simp [step, accept, h, State.facing]

theorem runAll_nil (s : State) : runAll s [] = .next (s.facing []) := rfl

theorem core_run_succ {s t : State} (n : Nat) (h : step s = .next t) :
    Sys2Proof.core.run (n + 1) s = Sys2Proof.core.run n t := by
  have hs : Sys2Proof.core.step s = .next t := h
  refine (Host.Core.run.eq_2 Sys2Proof.core s n).trans ?_
  rw [hs]

theorem core_run_succ_next {s u : State} {n : Nat} (h : Sys2Proof.core.run (n + 1) s = .next u) :
    ∃ t, step s = .next t ∧ Sys2Proof.core.run n t = .next u := by
  replace h := (Host.Core.run.eq_2 Sys2Proof.core s n).symm.trans h
  split at h
  · exact ⟨_, ‹_›, h⟩
  · cases h
  · cases h

theorem runAll_cons {s t : State} {e : HostEvent} (es : List HostEvent) (h : perform e s = .next t) :
    runAll s (e :: es) = runAll t es := by
  refine core_run_succ es.length ?_
  rw [step_cons rfl, facing_facing, perform_facing h]

/-- The first step of a run and the rest of it. -/
theorem runAll_cons_next {s u : State} {e : HostEvent} {es : List HostEvent} (h : runAll s (e :: es) = .next u) :
    ∃ t, perform e s = .next t ∧ runAll t es = .next u := by
  obtain ⟨t, ht, hr⟩ := core_run_succ_next h
  rw [step_cons rfl, facing_facing] at ht
  have hi : t.inbox = es := perform_inbox ht
  refine ⟨t.facing s.inbox, perform_facing ht s.inbox, ?_⟩
  unfold runAll
  rwa [facing_facing, ← hi, facing_self, hi]

theorem runAll_append {s t : State} {es : List HostEvent} (fs : List HostEvent) (h : runAll s es = .next t) :
    runAll s (es ++ fs) = runAll t fs := by
  induction es generalizing s with
  | nil =>
    rw [runAll_nil] at h
    cases h
    rfl
  | cons e es ih =>
    obtain ⟨u, hu, hr⟩ := runAll_cons_next h
    rw [List.cons_append, runAll_cons _ hu]
    exact ih hr

/-- An induction over runs: what one move keeps, every run keeps. -/
theorem runAll_keeps {P : State → Prop} (hface : ∀ s es, P s → P (s.facing es))
    (hmove : ∀ s e t, perform e s = .next t → P s → P t) {s t : State} {es : List HostEvent}
    (h : runAll s es = .next t) (hs : P s) : P t := by
  induction es generalizing s with
  | nil =>
    rw [runAll_nil] at h
    cases h
    exact hface s [] hs
  | cons e es ih =>
    obtain ⟨u, hu, hr⟩ := runAll_cons_next h
    exact ih hr (hmove s e u hu hs)

end Sys2Proof.Machine
end

