-- ==== Sys2Proof/Laws/Filter.lean ====
section
/-! SUPPORT. What the shared operations of the filter do, said once: the finalization step and its probes, the three commands that use
it, the size a CONFIG command computes, the merge of masks and the check list. -/

namespace Sys2Proof.Machine

/-! ### Modes and the invariant -/

theorem configured_of_ne_off {s : State} (h : s.mode ≠ .off) : s.mode.configured = true := by
  cases hm : s.mode <;> simp_all [OpMode.configured]

/-- In a configured mode the invariant gives m and k in the ranges of 10 R22. -/
theorem geometry_of_ne_off {s : State} (hi : BlockInv s) (h : s.mode ≠ .off) : s.geometryOk = true :=
  hi.configured_geometry (configured_of_ne_off h)

/-! ### The finalization step -/

/-- Finalizing twice is finalizing once (41 R102). -/
theorem finalize_finalize (s : State) : s.finalize.finalize = s.finalize := by
  unfold State.finalize
  simp only
  congr 1
  split <;> rfl

/-- The probes are exactly the locations of the current key's lanes in use (41 R101, 43 R112). -/
theorem mem_probes {s : State} (hi : BlockInv s) (h : s.mode ≠ .off) (j : Nat) : j ∈ s.finalize.probes ↔
    ∃ i < s.k.toNat,
      location (mix s.params.mixPlan s.laneA) (mix s.params.mixPlan s.laneB) s.m.toNat i = j := by
  have g := (geometryOk_iff s).mp (geometry_of_ne_off hi h)
  rw [finalize_probes (configured_of_ne_off h) g.2.2.2]
  simp

/-- Every probe is a bit of the filter (10 R45 item 2). -/
theorem probes_lt {s : State} (hi : BlockInv s) (h : s.mode ≠ .off) : ∀ l ∈ s.finalize.probes, l < s.m.toNat := by
  intro l hl
  obtain ⟨i, -, rfl⟩ := (mem_probes hi h l).mp hl
  have g := (geometryOk_iff s).mp (geometry_of_ne_off hi h)
  exact location_lt _ _ (by omega) _

theorem exec_hash {s : State} (hi : BlockInv s) : exec .hash s = .next s.finalize := by
  change execHash s = _
  unfold execHash
  split
  · exact onFilter_ok (hi.configured_geometry ‹_›) _
  · rfl

theorem exec_add {s : State} (hi : BlockInv s) (h : s.mode = .ready) :
    exec .add s = .next { s.finalize with buckets := parallelSet s.buckets s.finalize.probes } :=
  (if_neg (by simp [h])).trans (onFilter_ok (geometry_of_ne_off hi (by simp [h])) _)

theorem exec_test {s : State} (hi : BlockInv s) (h : s.mode = .ready) :
    exec .test s = .next { s.finalize with hit := parallelTest s.buckets s.finalize.probes } :=
  (if_neg (by simp [h])).trans (onFilter_ok (geometry_of_ne_off hi (by simp [h])) _)

/-! ### The size of a new filter -/

/-- What an accepted configuration computes: m' fits a word, is a positive multiple of 32 between CFG_CAP and 32 * W_MAX, less
than 32 above CFG_CAP, and K fits its field (44 R121). -/
theorem roundedCapacity_spec {s : State} (hv : s.params.valid = true) {n : Nat} (h : s.configAccepts n = true) :
    (BitVec.ofNat 32 (roundedCapacity s.cap)).toNat = roundedCapacity s.cap ∧ roundedCapacity s.cap % 32 = 0 ∧
    32 ≤ roundedCapacity s.cap ∧ roundedCapacity s.cap ≤ 32 * s.params.wMax ∧
    s.cap.toNat ≤ roundedCapacity s.cap ∧ roundedCapacity s.cap < s.cap.toNat + 32 ∧
    (BitVec.ofNat 8 n).toNat = n ∧ n ≤ s.params.kMax := by
  rw [configAccepts_iff] at h
  rw [params_valid_iff] at hv
  have hc : s.cap.toNat ≠ 0 := fun hh => h.1 (BitVec.eq_of_toNat_eq hh)
  unfold roundedCapacity
  simp only [BitVec.toNat_ofNat]
  omega

/-! ### Masks and population count -/

/-- Bit j of the merged mask of word w is set exactly when bit 32 w + j is one of the locations (42 R107). -/
theorem orMasks_getLsbD (ls : List Nat) (w : Nat) {j : Nat} (hj : j < 32) :
    (orMasks ls w).getLsbD j = decide (32 * w + j ∈ ls) := by
  induction ls with
  | nil => simp [orMasks]
  | cons l ls ih =>
    have he : orMasks (l :: ls) w = if bitWord l = w then bitMask l ||| orMasks ls w else orMasks ls w := rfl
    rw [he]
    unfold bitWord
    split
    · have hl : j = l % 32 ↔ 32 * w + j = l := by omega
      rw [BitVec.getLsbD_or, bitMask_getLsbD, ih, Bool.eq_iff_iff]
      simp only [Bool.or_eq_true, decide_eq_true_eq, List.mem_cons]
      rw [hl]
    · rw [ih, decide_eq_decide, List.mem_cons]
      exact ⟨.inr, fun h => h.elim (fun h => by omega) id⟩

/-- The population count as a sum over the bits (42 R109). -/
theorem popcountWord_eq_sum (w : Word) :
    popcountWord w = ((List.range 32).map fun j => if w.getLsbD j then 1 else 0).sum := by
  unfold popcountWord
  generalize List.range 32 = l
  induction l with
  | nil => rfl
  | cons a l ih =>
    rw [List.filter_cons]
    split <;> simp_all [Nat.add_comm]

/-! ### The check list -/

theorem firstError_cons (fails : Bool) (c : ErrCode) (l : List (Bool × ErrCode)) :
    firstError ((fails, c) :: l) = if fails then some c else firstError l := rfl

/-- No check fails exactly when none of them does (60 R133). -/
theorem firstError_eq_none {l : List (Bool × ErrCode)} : firstError l = none ↔ ∀ p ∈ l, p.1 = false := by
  induction l with
  | nil => simp [firstError]
  | cons p l ih =>
    obtain ⟨b, c⟩ := p
    rw [firstError_cons]
    cases b <;> simp [ih]

/-! ### The source's loop -/

/-- Normalizing the truncated remainder gives the Euclidean one (41 R97). -/
theorem normalizeRem_tmod {m : Nat} (hm : 0 < m) (y : Int) : normalizeRem m (y.tmod m) = y % m := by
  have h0 : (0 : Int) < m := by omega
  have h1 := Int.emod_nonneg y (show (m : Int) ≠ 0 by omega)
  have h2 := Int.emod_lt_of_pos y h0
  have hn : ((m : Int).natAbs : Int) = m := by simp
  unfold normalizeRem
  rw [Int.tmod_eq_emod]
  by_cases h3 : 0 ≤ y ∨ (m : Int) ∣ y
  · rw [if_pos h3]
    split <;> omega
  · have h4 : y % (m : Int) ≠ 0 := fun h => h3 (.inr (Int.dvd_of_emod_eq_zero h))
    rw [if_neg h3, hn]
    split <;> omega

end Sys2Proof.Machine
end

