-- ==== Sys2Proof/Laws/PerInstr.lean ====
section
/-! SUPPORT. Facts about every command as syntax, one lemma per constructor. Family `Opcode`: the word of a command the assembler
accepts carries the command's own opcode and no reserved bit (30_encoding.md rules R69 to R74, R81). -/

namespace Sys2Proof

/-- What an encoding as a number says of its fields. -/
theorem fields_of_toNat {v : Word} {c x lo : Nat} (hv : v.toNat = c * 2 ^ 28 + x) (hx : x < 2 ^ 28)
    (hlo : (if c = 2 then 2 ^ 16 else if c = 7 ∨ c = 8 then 2 ^ 8 else 2 ^ 0) = lo) (hz : x / lo = 0) :
    opField v = c ∧ v &&& rsvdMask c = 0#32 := by
  have ho : opField v = c := by
    rw [opField_eq, hv]
    omega
  refine ⟨ho, ?_⟩
  rw [← ho, reserved_clear_iff, ho, hlo, hv, Nat.add_comm, Nat.add_mul_mod_self_right, Nat.mod_eq_of_lt hx]
  exact hz

end Sys2Proof

namespace Sys2Proof.Laws.Opcode

/-- The encoding of i has i's opcode in bits 31 to 28 and zeros in every reserved bit of its format. -/
def Statement (i : Instr) : Prop :=
  i.wf = true → opField (encode i) = i.opcode ∧ encode i &&& rsvdMask i.opcode = 0#32

theorem nop : Statement .nop := fun _ => ⟨rfl, rfl⟩
theorem keyStart : Statement .keyStart := fun _ => ⟨rfl, rfl⟩
theorem hash : Statement .hash := fun _ => ⟨rfl, rfl⟩
theorem add : Statement .add := fun _ => ⟨rfl, rfl⟩
theorem test : Statement .test := fun _ => ⟨rfl, rfl⟩
theorem popcount : Statement .popcount := fun _ => ⟨rfl, rfl⟩
theorem commit : Statement .commit := fun _ => ⟨rfl, rfl⟩

theorem keyUnit (u : CodeUnit) : Statement (.keyUnit u) := fun _ => by
  have hu := u.isLt
  have he : encode (.keyUnit u) = BitVec.ofNat 32 (2 * 2 ^ 28) ||| BitVec.ofNat 32 u.toNat := by
    have : u.setWidth 32 = BitVec.ofNat 32 u.toNat := BitVec.eq_of_toNat_eq (by simp)
    rw [← this]
    rfl
  refine fields_of_toNat (x := u.toNat) (lo := 2 ^ 16) ?_ (by omega) rfl (by omega)
  rw [he, opcode_or_operand_toNat (by omega) (by omega)]
  rfl

theorem configNew (k : Nat) : Statement (.configNew k) := fun h => by
  have hk : k ≤ 255 := of_decide_eq_true h
  refine fields_of_toNat (x := k) (lo := 2 ^ 8) ?_ (by omega) rfl (by omega)
  exact opcode_or_operand_toNat (c := 7) (by omega) (by omega)

theorem configLoad (k : Nat) : Statement (.configLoad k) := fun h => by
  have hk : k ≤ 255 := of_decide_eq_true h
  refine fields_of_toNat (x := k) (lo := 2 ^ 8) ?_ (by omega) rfl (by omega)
  exact opcode_or_operand_toNat (c := 8) (by omega) (by omega)

end Sys2Proof.Laws.Opcode
end

