-- ==== Sys2Proof/Tests/Slice0.lean ====
section
/-! SUPPORT. The model's own tests, on values the spec gives (95_test_vectors.md unless a line says otherwise), and one witness for
every obligation that has hypotheses. -/

namespace Sys2Proof.Machine

/-! ### Helpers -/

/-- One observation of a next state. -/
def after {α : Type} (r : Result) (f : State → α) : Option α :=
  match r with
  | .next t => some (f t)
  | .fault _ => none
  | .refused _ => none

/-- A filter of m bits and k probes with these words, in the reference configuration. -/
def filter (md : OpMode) (m k : Nat) (words : Memory) : State :=
  { State.reset with mode := md, m := BitVec.ofNat 32 m, k := BitVec.ofNat 8 k, buckets := words }

/-- The lanes after the key "x" (95 2.1). -/
def withX (s : State) : State := { s with laneA := 0xFD0C5087#32, laneB := 0xB648441C#32, keyLen := 1#32 }

/-- The lanes after the key "y" (95 2.1). -/
def withY (s : State) : State := { s with laneA := 0xFC0C4EF4#32, laneB := 0xB74845AF#32, keyLen := 1#32 }

/-- The filter of 95 E11 after ADD "x", with the current key "x". -/
def readyX : State := withX (filter .ready 32 2 [(0, 0x00000008#32)])

/-- The same filter still loading. -/
def loadX : State := withX (filter .load 32 2 [(0, 0x00000008#32)])

/-- No filter, the current key is "x". -/
def offX : State := withX State.reset

theorem inv_offX : BlockInv offX := by
  constructor <;> decide

theorem inv_readyX : BlockInv readyX := by
  constructor <;> decide

theorem inv_loadX : BlockInv loadX := by
  constructor <;> decide

/-! ### WellFormed: the check refuses what the assembler refuses (30 R81) -/

theorem test_wf_refuses_new_256 : (Instr.configNew 256).wf = false := by decide
theorem test_wf_refuses_load_256 : (Instr.configLoad 256).wf = false := by decide
theorem test_wf_takes_255 : (Instr.configNew 255).wf = true ∧ (Instr.configLoad 255).wf = true := by decide
theorem test_stmt_wf_refuses_256 : (Stmt.newFilter 32#32 256).wf = false ∧ (Stmt.loadFilter 256 []).wf = false := by decide

/-! ### Decode: words written out bit by bit, OP then the fields of the format (30 R70 to R74) -/

theorem test_decode_nop : decode 0b0000_0000000000000000000000000000#32 = .ok .nop := by decide
theorem test_decode_keyStart : decode 0b0001_0000000000000000000000000000#32 = .ok .keyStart := by decide
theorem test_decode_keyUnit : decode 0b0010_000000000000_0001001000110100#32 = .ok (.keyUnit 0x1234#16) := by decide
theorem test_decode_hash : decode 0b0011_0000000000000000000000000000#32 = .ok .hash := by decide
theorem test_decode_add : decode 0b0100_0000000000000000000000000000#32 = .ok .add := by decide
theorem test_decode_test : decode 0b0101_0000000000000000000000000000#32 = .ok .test := by decide
theorem test_decode_popcount : decode 0b0110_0000000000000000000000000000#32 = .ok .popcount := by decide
theorem test_decode_configNew : decode 0b0111_00000000000000000000_00010001#32 = .ok (.configNew 17) := by decide
theorem test_decode_configLoad : decode 0b1000_00000000000000000000_11111110#32 = .ok (.configLoad 254) := by decide
theorem test_decode_commit : decode 0b1001_0000000000000000000000000000#32 = .ok .commit := by decide

/-- 95 2.6: the words that decode to nothing. -/
theorem test_decode_rejects :
    [0x00000001#32, 0x0FFFFFFF#32, 0x10000001#32, 0x20010041#32, 0x70000100#32, 0x90000001#32].map decode =
      List.replicate 6 (.error .rsvdField) ∧
    [0xA0000000#32, 0xFFFFFFFF#32].map decode = List.replicate 2 (.error .illegalOp) := by decide

/-- 30 R81: the words the assembler writes. -/
theorem test_encode :
    [Instr.nop, .keyStart, .keyUnit 0xFFFF#16, .hash, .add, .test, .popcount, .configNew 2, .configLoad 3, .commit].map encode =
      [0x00000000#32, 0x10000000#32, 0x2000FFFF#32, 0x30000000#32, 0x40000000#32, 0x50000000#32, 0x60000000#32,
        0x70000002#32, 0x80000003#32, 0x90000000#32] := by decide

theorem test_decodeTableWord : decodeTableWord 32 0x20000078 = some (.keyUnit 0x0078#16) := by decide

/-- The very next step runs the table's word: KEY_UNIT 0x0078 from reset (95 2.1). -/
theorem test_withFetchWord :
    after (step (State.reset.withFetchWord 32 0x20000078)) (fun t => (t.laneA, t.laneB, t.keyLen, t.inbox)) =
      some (0xFD0C5087#32, 0xB648441C#32, 1#32, []) := by decide

/-! ### The hash unit (95 2.1) -/

theorem test_fnvMul : [0x00000001#32, 0xFFFFFFFF#32, 0x811C9DA4#32].map fnvMul =
    [0x01000193#32, 0xFEFFFE6D#32, 0xE40C292C#32] := by decide
theorem test_foldByte : foldByte 0x811C9DC5#32 0x00#8 = 0x050C5D1F#32 ∧ foldByte 0xDCE8AC8C#32 0x78#8 = 0xB648441C#32 := by
  decide
theorem test_mix : [0x00000001#32, 0xFFFFFFFF#32, 0x80000000#32, 0x811C9DC5#32].map (mix .reference) =
    [0x00256B69#32, 0xAE2BFD40#32, 0xA908D480#32, 0x5902879E#32] := by decide
theorem test_high_byte_first : foldUnit .highFirst 0x811C9DC5#32 0x0100#16 = 0xEB741D64#32 := by decide
theorem test_low_byte_first : hashOf { Config.Params.reference with unitOrder := .lowFirst } seedA [0x1234#16] = 0xCF60360A#32 := by
  decide
theorem test_hash_abc : hashOf Config.Params.reference seedA [0x61#16, 0x62#16, 0x63#16] = 0x02062503#32 ∧
    hashOf Config.Params.reference seedB [0x61#16, 0x62#16, 0x63#16] = 0x71BE2B33#32 := by decide

theorem test_keyStart : after (exec .keyStart readyX) (fun t => (t.laneA, t.laneB, t.keyLen)) =
    some (0x811C9DC5#32, 0xDCE8AC8C#32, 0#32) := by decide
theorem test_keyUnit_zero : after (exec (.keyUnit 0x0000#16) State.reset) (fun t => (t.laneA, t.laneB)) =
    some (0x050C5D1F#32, 0x4E47A064#32) := by decide
theorem test_keyUnit_two_bytes : after (exec (.keyUnit 0x0100#16) State.reset) (fun t => (t.laneA, t.laneB)) =
    some (0xEB741D64#32, 0xC4C3F7D5#32) := by decide

/-! ### Locations and HASH (95 2.2) -/

theorem test_location_signed : [0, 1, 2, 3].map (location 0x8C1261A3#32 0x6A7E7E80#32 3200) = [1187, 803, 419, 35] := by decide
theorem test_location_largest : location 0x02062503#32 0x71BE2B33#32 1048576 15 = 699648 := by decide
theorem test_hash_off : after (exec .hash offX) (fun t => (t.hashA, t.hashB, t.locv)) =
    some (0x8C1261A3#32, 0x6A7E7E80#32, false) := by decide
theorem test_hash_load : after (exec .hash loadX) (fun t => (t.statusWord, t.probes)) = some (0x00000005#32, [3, 3]) := by decide

/-! ### Bit storage (95 2.3) -/

theorem test_bit_addresses : [0, 31, 32, 41, 1048575].map (fun i => (bitWord i, bitMask i)) =
    [(0, 0x00000001#32), (0, 0x80000000#32), (1, 0x00000001#32), (1, 0x00000200#32), (32767, 0x80000000#32)] := by decide
theorem test_popcount_words : [0x00000000#32, 0xFFFFFFFF#32, 0x80000000#32, 0x20420220#32].map popcountWord = [0, 32, 1, 5] := by
  decide
theorem test_popcount_full : after (exec .popcount (filter .load 32 2 [(0, 0xFFFFFFFF#32)])) State.pop = some 32#32 := by decide
theorem test_popcount_off : after (exec .popcount State.reset) State.statusWord = some 0x00003100#32 := by decide

/-! ### ADD and TEST (95 2.4) -/

theorem test_add_x : after (exec .add (withX (filter .ready 32 2 []))) (fun t => (t.buckets, t.statusWord)) =
    some ([(0, 0x00000008#32)], 0x00000006#32) := by decide
theorem test_add_off : after (exec .add State.reset) (fun t => (t.statusWord, t.hashA)) = some (0x00003100#32, 0#32) := by decide
theorem test_test_y : after (exec .test (withY (filter .ready 32 2 [(0, 0x00000008#32)]))) (fun t => (t.hit, t.probes)) =
    some (false, [5, 17]) := by decide
theorem test_test_x : after (exec .test readyX) State.hit = some true ∧
    after (exec .test (withX (filter .ready 32 0 []))) State.hit = some true := by decide

/-! ### Configuration, reconstruction, registers (95 2.5, 2.6, 2.7) -/

theorem test_nop : after (exec .nop readyX) id = some readyX := by decide
theorem test_capacity_rounding : [1#32, 32#32, 33#32, 65#32, 100#32, 1048575#32].map roundedCapacity =
    [32, 32, 64, 96, 128, 1048576] := by decide
theorem test_configNew : after (exec (.configNew 3) { readyX with cap := 100#32 })
    (fun t => (t.m, t.k, t.buckets, t.statusWord)) = some (128#32, 3#8, [], 0x00000002#32) := by decide
theorem test_configNew_too_large : after (exec (.configNew 1) { State.reset with cap := 1048577#32 }) State.statusWord =
    some 0x00004100#32 := by decide
theorem test_configLoad : after (exec (.configLoad 3) { readyX with cap := 64#32, aidx := 9#32 })
    (fun t => (t.m, t.k, t.aidx, t.statusWord)) = some (64#32, 3#8, 0#32, 0x00000001#32) := by decide
theorem test_configLoad_k_17 : after (exec (.configLoad 17) { State.reset with cap := 32#32 }) State.statusWord =
    some 0x00004100#32 := by decide
theorem test_commit : after (exec .commit loadX) (fun t => (t.statusWord, t.buckets)) =
    some (0x00000002#32, [(0, 0x00000008#32)]) := by decide
theorem test_commit_ready : after (exec .commit readyX) (fun t => (t.mode, t.errCode)) = some (.ready, .badMode) := by decide
theorem test_array_write_ready : after (hostWrite 0x34#8 5#32 (filter .ready 64 3 [])) (fun t => (t.buckets, t.statusWord)) =
    some ([], 0x00006102#32) := by decide
theorem test_array_write_end : after (hostWrite 0x34#8 1#32 { filter .load 32 2 [] with aidx := 1#32 })
    (fun t => (t.aidx, t.statusWord)) = some (1#32, 0x00005101#32) := by decide
theorem test_array_write_keeps_canonical : after (hostWrite 0x34#8 0#32 loadX) (fun t => (t.buckets, t.aidx)) =
    some ([], 1#32) := by decide
theorem test_array_read : after (hostRead 0x34#8 readyX) (fun t => (t.outbox, t.aidx)) = some ([0x00000008#32], 1#32) := by decide
theorem test_array_read_end : after (hostRead 0x34#8 { readyX with aidx := 0xFFFFFFFF#32 })
    (fun t => (t.outbox, t.aidx, t.errCode)) = some ([0#32], 0xFFFFFFFF#32, .indexRange) := by decide
theorem test_misaligned_command : after (hostWrite 0x11#8 0x40000000#32 State.reset) State.statusWord = some 0x00007100#32 := by
  decide
theorem test_nested_error : after (hostWrite 0x10#8 0xA0000000#32 (State.reset.raiseError .badMode)) State.statusWord =
    some 0x00003300#32 := by decide
theorem test_priority : after (hostWrite 0x10#8 0x40000001#32 State.reset) State.errCode = some .rsvdField := by decide
theorem test_param : after (hostRead 0x04#8 State.reset) State.outbox = some [0x00000110#32] := by decide
theorem test_locSel : after (hostWrite 0x3C#8 0x1FF#32 State.reset) State.locSel = some 0xFF#8 := by decide
theorem test_surrogates : unitsOfChar (Char.ofNat 0x1F600) = [0xD83D#16, 0xDE00#16] ∧ unitsOfChar 'x' = [0x0078#16] := by decide

/-! ### Witnesses: concrete inputs that meet an obligation's hypotheses -/

/-- Hypotheses of DecodeInvertsEncode and of Laws.Opcode, at the largest operands. -/
theorem witness_wf : (Instr.configLoad 255).wf = true ∧ (Instr.keyUnit 0xFFFF#16).wf = true := by decide

/-- Hypotheses of EncodeInvertsDecode and DecoderAgreesWithOpcodeMap. -/
theorem witness_decodes : decode 0x700000FF#32 = .ok (.configNew 255) ∧
    (⟨"CONFIG_NEW", 0xFFFFFF00#32, 0x70000000#32⟩ : OpcodeRow) ∈ opcodeMap ∧ 0x700000FF#32 &&& 0xFFFFFF00#32 = 0x70000000#32 := by
  decide

/-- The three clauses of CommandWriteExecutesOrRefuses and the clauses of isPlainCommand and isOperandCommand, at the opcodes
where they meet. -/
theorem witness_command_words :
    (10 ≤ (0xA0000000#32).toNat / 2 ^ 28) ∧
    ((0x90000001#32).toNat / 2 ^ 28 = 9 ∧ 0x90000001#32 &&& 0x0FFFFFFF#32 ≠ 0#32) ∧
    ((0x90000000#32).toNat / 2 ^ 28 = 9 ∧ 0x90000000#32 &&& 0x0FFFFFFF#32 = 0#32) ∧
    ((0x20010000#32).toNat / 2 ^ 28 = 2 ∧ 0x20010000#32 &&& 0x0FFF0000#32 ≠ 0#32) ∧
    ((0x2000FFFF#32).toNat / 2 ^ 28 = 2 ∧ 0x2000FFFF#32 &&& 0x0FFF0000#32 = 0#32) ∧
    ((0x80000100#32).toNat / 2 ^ 28 = 8 ∧ 0x80000100#32 &&& 0x0FFFFF00#32 ≠ 0#32) ∧
    ((0x800000FF#32).toNat / 2 ^ 28 = 8 ∧ 0x800000FF#32 &&& 0x0FFFFF00#32 = 0#32) := by decide

/-- Hypotheses of StepRunsDecodedCommand and of both clauses of StepPerformsOldestAccess. -/
theorem witness_step : ∃ s : State, ∃ es, s.inbox = .write 0x10#8 0x40000000#32 :: es ∧ es ≠ [] ∧
    decode 0x40000000#32 = .ok .add ∧ (∃ t, step s = .next t) ∧ State.reset.inbox = [] :=
  ⟨readyX.facing [.write 0x10#8 0x40000000#32, .read 0x0C#8], [.read 0x0C#8], rfl, by simp, by decide, ⟨_, rfl⟩, rfl⟩

/-- Hypothesis of EveryStepKeepsInvariant, in each mode. -/
theorem witness_invariant : BlockInv offX ∧ BlockInv loadX ∧ BlockInv readyX := ⟨inv_offX, inv_loadX, inv_readyX⟩

/-- Hypothesis of ResetMeetsInvariant and of RegisterViews, at both ends of each range. -/
theorem witness_params : ({ Config.Params.reference with kMax := 255, wMax := 67108864 } : Config.Params).valid = true ∧
    ({ Config.Params.reference with kMax := 1, wMax := 1 } : Config.Params).valid = true := by decide

/-- Hypotheses of ResetValues and RegistersReadTheirResetValues: a word of the storage, a reset, the first and last offset. -/
theorem witness_reset : 32767 < readyX.params.wMax ∧ readyX.params.valid = true ∧
    (∃ t, perform (.reset [(3, 5#32)]) readyX = .next t) ∧
    (0x0C#8).toNat % 4 = 0 ∧ 0x0C ≤ (0x0C#8).toNat ∧ 0x0C#8 ≠ 0x34#8 ∧
    (0x40#8).toNat % 4 = 0 ∧ (0x40#8).toNat ≤ 0x40 ∧ 0x40#8 ≠ 0x34#8 :=
  ⟨by decide, by decide, ⟨_, rfl⟩, by decide, by decide, by decide, by decide, by decide, by decide⟩

/-- Hypotheses of ResetContentsAreUnobservable, with different contents at both resets. -/
theorem witness_reset_contents :
    [HostEvent.reset [(1, 5#32)], .read 0x00#8].map eraseContents = [HostEvent.reset [], .read 0x00#8].map eraseContents ∧
    (∃ s, runAll (State.resetWith Config.Params.reference (Memory.ofContents 32768 [(0, 7#32)]))
      [.reset [(1, 5#32)], .read 0x00#8] = .next s) ∧
    ∃ t, runAll (State.resetWith Config.Params.reference (Memory.ofContents 32768 [])) [.reset [], .read 0x00#8] = .next t :=
  ⟨rfl, ⟨_, rfl⟩, ⟨_, rfl⟩⟩

/-- Hypotheses of InvisibleWordsAreUnobservable: the states differ in word 1 of a one-word filter, and a
POPCOUNT is to come. -/
theorem witness_invisible :
    BlockInv (readyX.facing [cmd .popcount]) ∧
    BlockInv { readyX.facing [cmd .popcount] with buckets := [(0, 0x00000008#32), (1, 9#32)] } ∧
    sameVisible (readyX.facing [cmd .popcount])
      { readyX.facing [cmd .popcount] with buckets := [(0, 0x00000008#32), (1, 9#32)] } ∧
    ∃ t, step (readyX.facing [cmd .popcount]) = .next t :=
  ⟨by constructor <;> decide, by constructor <;> decide, ⟨rfl, by decide⟩, ⟨_, rfl⟩⟩

/-- Hypotheses of ErrorRecording: no error yet; one already; an access that sets ERR. -/
theorem witness_errors : State.reset.err = false ∧ (State.reset.raiseError .access).err = true ∧ BlockInv offX ∧
    ∃ t, perform (.read 0x44#8) offX = .next t ∧ t.err = true :=
  ⟨rfl, rfl, inv_offX, ⟨_, rfl, rfl⟩⟩

/-- Hypothesis of RefusedAccessIsPrecise, once for every check of 60 R133. -/
theorem witness_refused :
    [eventError (.read 0x41#8) offX, eventError (.write 0x44#8 0#32) offX, eventError (.write 0x10#8 0xF0000001#32) offX,
      eventError (.write 0x10#8 0x40000001#32) offX, eventError (.write 0x10#8 0x50000000#32) loadX,
      eventError (.write 0x10#8 0x60000000#32) offX, eventError (.write 0x10#8 0x90000000#32) readyX,
      eventError (.write 0x10#8 0x70000011#32) { offX with cap := 32#32 }, eventError (.read 0x34#8) offX,
      eventError (.read 0x34#8) { readyX with aidx := 1#32 }, eventError (.write 0x34#8 0#32) { readyX with aidx := 1#32 },
      eventError (.write 0x34#8 0#32) { loadX with aidx := 1#32 }] =
    [some .access, some .access, some .illegalOp, some .rsvdField, some .badMode, some .badMode, some .badMode, some .badConfig,
      some .badMode, some .indexRange, some .readOnly, some .indexRange] := by decide

/-- Hypotheses of AcceptedAccessRecordsNoError. -/
theorem witness_accepted : BlockInv readyX ∧ eventError (.write 0x10#8 0x40000000#32) readyX = none ∧
    (∀ v, HostEvent.write 0x10#8 0x40000000#32 ≠ .write 0x0C#8 v) ∧
    ∀ cs, HostEvent.write 0x10#8 0x40000000#32 ≠ .reset cs :=
  ⟨inv_readyX, by decide, fun v h => by injection h with h1; exact absurd h1 (by decide), fun _ h => by cases h⟩

/-- The clauses of StatusWriteAcknowledges: bits 8 and 9 in all four combinations. -/
theorem witness_ack : [0x000#32, 0x100#32, 0x200#32, 0xFFFFFFFF#32].map (fun v => (v.toNat / 256 % 2, v.toNat / 512 % 2)) =
    [(0, 0), (1, 0), (0, 1), (1, 1)] := by decide

/-- Hypotheses of AccessTypes and MisalignedAndUnmappedAccesses at their edges. -/
theorem witness_offsets : ((0x40#8).toNat % 4 = 0 ∧ (0x40#8).toNat ≤ 0x40 ∧ 0x40#8 ≠ 0x34#8) ∧
    (0x03#8).toNat % 4 ≠ 0 ∧ 0x44 ≤ (0x44#8).toNat ∧ 0x44 ≤ (0xFC#8).toNat := by decide

/-- Hypothesis of LocDataRead, with the last lane in use and the first lane out of use selected. -/
theorem witness_locData : ∃ t, exec .hash { readyX with locSel := 1#8 } = .next t ∧ t.locv = true ∧ t.locSel.toNat < t.k.toNat ∧
    ¬ (2 : Nat) < t.k.toNat ∧ BlockInv readyX :=
  ⟨_, rfl, rfl, by decide, by decide, inv_readyX⟩

/-- The clauses of ArrayDataRead and ArrayDataWrite, at the last word and one past it. -/
theorem witness_arrayData : BlockInv offX ∧ BlockInv loadX ∧ BlockInv readyX ∧ offX.mode = .off ∧ loadX.mode = .load ∧
    readyX.mode = .ready ∧ loadX.aidx.toNat < loadX.m.toNat / 32 ∧ readyX.aidx.toNat < readyX.m.toNat / 32 ∧
    BlockInv { loadX with aidx := 1#32 } ∧ loadX.m.toNat / 32 ≤ ({ loadX with aidx := 1#32 } : State).aidx.toNat :=
  ⟨inv_offX, inv_loadX, inv_readyX, rfl, rfl, rfl, by decide, by decide, by constructor <;> decide, by decide⟩

/-- Hypotheses of ReferenceMix, on the row 00000001 of 95 2.1. -/
theorem witness_mix : 0x00002001#32 = 0x00000001#32 + (0x00000001#32 <<< 13) ∧
    0x00002041#32 = 0x00002001#32 ^^^ (0x00002001#32 >>> 7) ∧ 0x00012249#32 = 0x00002041#32 + (0x00002041#32 <<< 3) ∧
    0x00012249#32 = 0x00012249#32 ^^^ (0x00012249#32 >>> 17) := by decide

/-- Hypotheses of StreamingEqualsBatch: a unit, a read and a refused KEY_UNIT between them. -/
theorem witness_streaming : BlockInv readyX ∧
    (∀ e ∈ [HostEvent.write 0x10#8 0x20000078#32, .read 0x38#8, .write 0x10#8 0x20010041#32],
      ¬ isCommand e .keyStart ∧ ∀ cs, e ≠ .reset cs) ∧
    unitsIn [.write 0x10#8 0x20000078#32, .read 0x38#8, .write 0x10#8 0x20010041#32] = [0x0078#16] := by
  refine ⟨inv_readyX, fun e he => ?_, by decide⟩
  simp only [List.mem_cons, List.not_mem_nil, or_false] at he
  rcases he with rfl | rfl | rfl
  · exact ⟨fun ⟨v, hv, hd⟩ => by injection hv with _ hv; subst hv; revert hd; decide, fun _ h => by cases h⟩
  · exact ⟨fun ⟨v, hv, _⟩ => (by cases hv), fun _ h => by cases h⟩
  · exact ⟨fun ⟨v, hv, hd⟩ => by injection hv with _ hv; subst hv; revert hd; decide, fun _ h => by cases h⟩

/-- Hypotheses of UnitAliasing, SourceLoopEmitsClosedForm, LaneRecurrenceGivesClosedForm, SignednessOfHashes and
CoincidingLocations: the least high byte, the least m, the largest m, and a coincidence (41 R103). -/
theorem witness_locations : 0x01#8 ≠ 0x00#8 ∧ 0 < 1 ∧ 0 < 2 ^ 31 ∧ 2 ^ 31 ≤ 2 ^ 31 ∧ 2 ^ 31 ∣ 2 ^ 32 ∧ 1 ∣ 2 ^ 32 ∧
    ((0 : Nat) - 1 : Int) * (0x6A7E7E80#32).toInt % ((96 : Nat) : Int) = 0 := by decide

/-- Hypotheses of FinalizationStep and HashCompletesInEveryMode: HASH in OFF and in LOAD, ADD and TEST in READY, and the last
lane in use and the first out of use. -/
theorem witness_finalize : BlockInv offX ∧ BlockInv loadX ∧ BlockInv readyX ∧ offX.mode = .off ∧ loadX.mode ≠ .off ∧
    readyX.mode = .ready ∧ Instr.hash ∈ [Instr.hash, .add, .test] ∧ Instr.add ∈ [Instr.hash, .add, .test] ∧
    Instr.test ∈ [Instr.hash, .add, .test] ∧ 1 < readyX.k.toNat ∧ ¬ 2 < readyX.k.toNat ∧ 2 < readyX.params.kMax :=
  ⟨inv_offX, inv_loadX, inv_readyX, rfl, by decide, rfl, by decide, by decide, by decide, by decide, by decide, by decide⟩

/-- Hypotheses of ArrayWordLaws, SetBitAndTestBit and ParallelSetMergesMasks. -/
theorem witness_memory : Memory.wf [(0, 8#32), (3, 1#32)] ∧ 31 < 32 ∧ [3, 41].Perm [41, 3] ∧
    (∀ w, Memory.read [(0, 8#32)] w = Memory.read [(0, 8#32)] w) :=
  ⟨by decide, by decide, List.Perm.swap _ _ _, fun _ => rfl⟩

/-- Hypotheses of PopcountLatchesSetBits, AddInsertsTheCurrentKey, TestProbesTheCurrentKey, AddIsIdempotent and CommitEndsReconstruction. -/
theorem witness_modes : BlockInv readyX ∧ readyX.mode = .ready ∧ BlockInv loadX ∧ loadX.mode = .load ∧ loadX.mode ≠ .ready ∧
    BlockInv offX ∧ offX.mode = .off ∧ BlockInv (withX (filter .ready 32 0 [])) ∧ (withX (filter .ready 32 0 [])).k = 0#8 :=
  ⟨inv_readyX, rfl, inv_loadX, rfl, by decide, inv_offX, rfl, by constructor <;> decide, rfl⟩

/-- Hypotheses of NoFalseNegatives, with the key "x" entered again in between. -/
theorem witness_noFalseNegatives : ∃ t r, BlockInv readyX ∧ readyX.mode = .ready ∧ readyX.currentKey [0x0078#16] ∧
    exec .add readyX = .next t ∧
    (∀ e ∈ [HostEvent.write 0x10#8 0x10000000#32, .write 0x10#8 0x20000078#32], keepsFilter e = true) ∧
    runAll t [.write 0x10#8 0x10000000#32, .write 0x10#8 0x20000078#32] = .next r ∧ r.currentKey [0x0078#16] :=
  ⟨_, _, inv_readyX, rfl, ⟨by decide, by decide⟩, rfl, by decide, rfl, ⟨by decide, by decide⟩⟩

/-- Hypotheses of AddOrderDoesNotMatter and AddNeverLowersSetBits. -/
theorem witness_addOrder : BlockInv readyX ∧ readyX.mode = .ready ∧
    [[0x0078#16], [0x0079#16]].Perm [[0x0079#16], [0x0078#16]] ∧ ∃ t, exec .add readyX = .next t :=
  ⟨inv_readyX, rfl, List.Perm.swap _ _ _, ⟨_, rfl⟩⟩

/-- Hypotheses of ConfigBuildsAnEmptyFilter: accepted at both ends of the capacity and of the count, refused one past them. -/
theorem witness_config : BlockInv { readyX with cap := 1#32 } ∧
    (Instr.configNew 16, OpMode.ready) ∈ [(Instr.configNew 16, OpMode.ready), (.configLoad 16, .load)] ∧
    (Instr.configLoad 0, OpMode.load) ∈ [(Instr.configNew 0, OpMode.ready), (.configLoad 0, .load)] ∧
    1 ≤ (1#32).toNat ∧ (1048576#32).toNat ≤ 32 * readyX.params.wMax ∧ 16 ≤ readyX.params.kMax ∧
    32 * readyX.params.wMax < (1048577#32).toNat ∧ readyX.params.kMax < 17 ∧ readyX.cap = 0#32 :=
  ⟨by constructor <;> decide, by decide, by decide, by decide, by decide, by decide, by decide, by decide, by decide⟩

/-- Hypotheses of DumpReturnsVisibleWords and SerializationRoundTrip. -/
theorem witness_roundTrip : BlockInv readyX ∧ readyX.mode = .ready ∧ readyX.mode ≠ .off ∧ BlockInv offX ∧
    offX.params = readyX.params ∧
    ∃ f', runAll readyX (dumpEvents readyX.nw) = .next f' ∧ f'.outbox = readyX.outbox ++ [0x00000008#32] :=
  ⟨inv_readyX, rfl, by decide, inv_offX, rfl, ⟨_, rfl, by decide⟩⟩

/-- Hypotheses of ModeAndSizeChangeOnlyAsNamed: a move that changes the mode, for each way it can change, and m and k. -/
theorem witness_mode_changes :
    (after (perform (cmd (.configNew 3)) { offX with cap := 64#32 }) (fun t => (t.mode, t.m, t.k)) = some (.ready, 64#32, 3#8)) ∧
    (after (perform (cmd (.configLoad 3)) { offX with cap := 64#32 }) State.mode = some .load) ∧
    (after (perform (cmd .commit) loadX) State.mode = some .ready) ∧
    (after (perform (.reset []) readyX) State.mode = some .off) := by decide

/-- Hypotheses of ResultsChangeOnlyAsNamed and HostRegistersChangeOnlyAsNamed: each of the fields they name does change. -/
theorem witness_result_changes :
    (after (perform (cmd (.keyUnit 0x79#16)) readyX) (fun t => decide (t.laneA ≠ readyX.laneA ∧ t.keyLen ≠ readyX.keyLen))
      = some true) ∧
    (after (perform (cmd .hash) readyX) (fun t => decide (t.hashA ≠ readyX.hashA ∧ t.loc ≠ readyX.loc ∧ t.locv ≠ readyX.locv))
      = some true) ∧
    (after (perform (cmd .test) readyX) (fun t => decide (t.hit ≠ readyX.hit)) = some true) ∧
    (after (perform (cmd .popcount) readyX) (fun t => decide (t.pop ≠ readyX.pop)) = some true) ∧
    (after (perform (wr .cfgCap 5#32) readyX) (fun t => decide (t.cap ≠ readyX.cap)) = some true) ∧
    (after (perform (rd .arrayData) readyX) (fun t => decide (t.aidx ≠ readyX.aidx)) = some true) ∧
    (after (perform (wr .locSel 5#32) readyX) (fun t => decide (t.locSel ≠ readyX.locSel)) = some true) := by decide

/-- Hypotheses of ReadyFilterIsSetOnly: an ADD, and a set bit. -/
theorem witness_setOnly : BlockInv readyX ∧ readyX.mode = .ready ∧ keepsFilter (cmd .add) = true ∧
    (∃ t, perform (cmd .add) readyX = .next t) ∧ readyX.buckets.testBit 3 = true :=
  ⟨inv_readyX, rfl, by decide, ⟨_, rfl⟩, by decide⟩

/-- Hypotheses of FrameOfCommandsThatStoreNothing. -/
theorem witness_frame_plain : Instr.test ≠ .add ∧ (∀ n, Instr.test ≠ .configNew n) ∧ (∀ n, Instr.test ≠ .configLoad n) ∧
    ∃ t, exec .test readyX = .next t :=
  ⟨by decide, fun n => by simp, fun n => by simp, ⟨_, rfl⟩⟩

/-- Hypotheses of FrameOfStoringMoves: ADD with a word it does not reach, CONFIG_NEW with the first word it does not clear, and an
ARRAY_DATA write with the next word. -/
theorem witness_frame_storing :
    ((∃ t, exec .add readyX = .next t) ∧ ∀ l ∈ readyX.finalize.probes, bitWord l ≠ 1) ∧
    ((∃ t, exec (.configNew 2) { readyX with cap := 32#32 } = .next t) ∧ roundedCapacity 32#32 / 32 ≤ 1) ∧
    (∃ t, hostWrite 0x34#8 7#32 loadX = .next t) ∧ 1 ≠ loadX.aidx.toNat :=
  ⟨⟨⟨_, rfl⟩, by decide⟩, ⟨⟨_, rfl⟩, by decide⟩, ⟨_, rfl⟩, by decide⟩

end Sys2Proof.Machine
end

namespace Sys2Proof.Machine

/-! ### The invariant is kept by every named update -/

namespace BlockInv

variable {s : State}

theorem facing (hi : BlockInv s) (es : List HostEvent) : BlockInv (s.facing es) := { hi with }

theorem reply (hi : BlockInv s) (v : Word) : BlockInv (s.reply v) := { hi with }

/-- Recording an error leaves ERR set and a code recorded: the new one, or the one that was there (60 R131). -/
theorem raiseError (hi : BlockInv s) {c : ErrCode} (hc : c ≠ .none) : BlockInv (s.raiseError c) :=
  { hi with
    err_iff_code := by
      have := hi.err_iff_code
      cases he : s.err <;> simp_all }

theorem refuseRead (hi : BlockInv s) {c : ErrCode} (hc : c ≠ .none) : BlockInv (s.refuseRead c) :=
  (hi.raiseError hc).reply 0#32

/-- Bit 8 clears ERR and ERRCODE together (10 R28). -/
theorem ackErrors (hi : BlockInv s) (v : Word) : BlockInv (s.ackErrors v) :=
  { hi with
    err_iff_code := by
      have := hi.err_iff_code
      cases hv : v.getLsbD 8 <;> simp_all }

end BlockInv

/-- A block with no filter, no recorded error and any array within its storage meets the invariant (70 R146, R147). -/
theorem blockInv_resetWith {p : Config.Params} (hp : p.valid = true) {b : Memory} (hb : Memory.wf b)
    (hlt : ∀ d ∈ b, d.1 < p.wMax) : BlockInv (State.resetWith p b) where
  params_valid := hp
  off_empty _ := ⟨rfl, rfl⟩
  configured_geometry h := nomatch h
  locv_below h := nomatch h
  loc_lanes := List.length_replicate
  pop_le := Nat.le_refl _
  buckets_wf := hb
  buckets_below := hlt
  err_iff_code := by simp [State.resetWith]

namespace BlockInv

variable {s : State}

theorem applyReset (hi : BlockInv s) (cs : List (Nat × Word)) : BlockInv (s.applyReset cs) :=
  have hc := Memory.ofContents_wf s.params.wMax cs
  { blockInv_resetWith hi.params_valid hc.1 hc.2 with }

/-- An accepted configuration gives m and k in range, and clears what spoke of the old filter (44 R121). -/
theorem configApply (hi : BlockInv s) {n : Nat} (ha : s.configAccepts n = true) {md : OpMode}
    (hmd : md.configured = true) : BlockInv (s.configApply n md) where
  params_valid := hi.params_valid
  off_empty h := by
    obtain rfl : md = .off := h
    cases hmd
  configured_geometry _ := by
    obtain ⟨hm, h32, hlow, hhigh, -, -, hk, hkMax⟩ := roundedCapacity_spec hi.params_valid ha
    rw [geometryOk_iff, State.configApply_m, State.configApply_k, hm, hk]
    exact ⟨h32, hlow, hhigh, hkMax⟩
  locv_below h := nomatch h
  loc_lanes := hi.loc_lanes
  pop_le := Nat.zero_le _
  buckets_wf := Memory.clearBelow_wf hi.buckets_wf _
  buckets_below d hd := hi.buckets_below d (Memory.mem_clearBelow.mp hd).1
  err_iff_code := hi.err_iff_code

/-- The locations a finalization latches lie below m (41 R98, R101). -/
theorem finalize (hi : BlockInv s) : BlockInv s.finalize :=
  { hi with
    locv_below := by
      intro hc
      change s.mode.configured = true at hc
      obtain ⟨-, hm, -, hk⟩ := (geometryOk_iff s).mp (hi.configured_geometry hc)
      refine ⟨hc, fun i hik => ?_⟩
      change i < s.k.toNat at hik
      rw [State.finalize_loc, if_pos hc, List.getD_eq_getElem?_getD,
        laneLocations_getElem? _ _ _ _ _ (by omega), if_pos hik]
      exact location_lt _ _ (by omega) i
    loc_lanes := by
      rw [State.finalize_loc]
      split
      · exact laneLocations_length ..
      · exact hi.loc_lanes }

/-- ADD lists no word outside the storage: its probes are bits of the filter (10 R23, R45 item 2). -/
theorem addProbes (hi : BlockInv s) (hm : s.mode ≠ .off) :
    BlockInv { s.finalize with buckets := parallelSet s.buckets s.finalize.probes } :=
  { hi.finalize with
    buckets_wf := parallelSet_wf hi.buckets_wf _
    buckets_below := by
      obtain ⟨-, -, hw, -⟩ := (geometryOk_iff s).mp (geometry_of_ne_off hi hm)
      intro d hd
      change d.1 < s.params.wMax
      rcases mem_parallelSet hd with ⟨l, hl, hdl⟩ | ⟨c, hc, hdc⟩
      · have := probes_lt hi hm l hl
        rw [hdl, bitWord]
        omega
      · exact hdc ▸ hi.buckets_below c hc }

/-- The population count fits its register and is at most m (42 R110). -/
theorem popcount (hi : BlockInv s) :
    BlockInv { s with pop := BitVec.ofNat 32 (setBits s.buckets s.nw) } :=
  { hi with
    pop_le := by
      have hle := setBits_le s.buckets s.nw
      have hmod := Nat.mod_le (setBits s.buckets s.nw) (2 ^ 32)
      rw [State.nw] at hle hmod
      rw [BitVec.toNat_ofNat, State.nw]
      change _ ≤ s.m.toNat
      omega }

/-- An accepted ARRAY_DATA write stores one word of the filter, which the storage has (44 R126). -/
theorem writeArray (hi : BlockInv s) (g : s.geometryOk = true) (hx : s.aidx.toNat < s.nw) (v : Word) :
    BlockInv { s with buckets := s.buckets.write s.aidx.toNat v, aidx := s.aidx + 1#32 } :=
  { hi with
    buckets_wf := Memory.write_wf hi.buckets_wf _ _
    buckets_below := by
      obtain ⟨-, -, hw, -⟩ := (geometryOk_iff s).mp g
      rw [State.nw] at hx
      intro d hd
      change d.1 < s.params.wMax
      rcases Memory.mem_write hd with ⟨rfl, -⟩ | hd
      · change s.aidx.toNat < _
        omega
      · exact hi.buckets_below d hd }

/-- COMMIT keeps the filter that LOAD built (44 R124). -/
theorem commit (hi : BlockInv s) (h : s.mode = .load) : BlockInv { s with mode := .ready } :=
  { hi with
    off_empty := nofun
    configured_geometry := fun _ => geometry_of_ne_off (s := s) hi (by simp [h])
    locv_below := fun hv => ⟨rfl, (hi.locv_below hv).2⟩ }

end BlockInv

/-! ### Every step completes and keeps the invariant -/

theorem decodeErrCode_ne_none (e : DecodeError) : decodeErrCode e ≠ .none := by cases e <;> nofun

theorem ne_off_of_ready {s : State} (h : ¬ s.mode ≠ .ready) : s.mode ≠ .off := by
  rw [not_not.mp h]
  nofun

/-- A command keeps the invariant. -/
theorem CommandMove.keeps_inv {s t : State} {i : Instr} (m : CommandMove s i t) (hi : BlockInv s) : BlockInv t := by
  cases m with
  | nop => exact hi
  | keyStart | keyUnit => exact { hi with }
  | hash => exact hi.finalize
  | add h => exact hi.addProbes (ne_off_of_ready (not_not.mpr h))
  | test => exact { hi.finalize with }
  | popcount => exact hi.popcount
  | configNew n h => exact hi.configApply h rfl
  | configLoad n h => exact hi.configApply h rfl
  | commit h => exact hi.commit h
  | addRefused | testRefused | popcountRefused | configNewRefused | configLoadRefused | commitRefused =>
    exact hi.raiseError nofun

/-- A move keeps the invariant. -/
theorem Move.keeps_inv {s t : State} {e : HostEvent} (m : Move s e t) (hi : BlockInv s) : BlockInv t := by
  cases m with
  | readRefused | readArrayOff | readArrayRange => exact hi.refuseRead nofun
  | writeRefused | writeArrayOff | writeArrayReady | writeArrayRange => exact hi.raiseError nofun
  | badCommand v e => exact hi.raiseError (decodeErrCode_ne_none e)
  | readValue => exact hi.reply _
  | writeReadOnly => exact hi
  | writeStatus v => exact hi.ackErrors v
  | readArray | writeCap | writeIdx | writeLocSel => exact { hi with }
  | writeArray v _ hx g => exact hi.writeArray g hx v
  | command v i t _ m => exact m.keeps_inv hi
  | reset cs => exact hi.applyReset cs

/-- An operation over the filter completes in a configured mode. -/
theorem onFilter_completes {s : State} (hi : BlockInv s) (h : s.mode ≠ .off) (u : State) :
    ∃ t, s.onFilter u = .next t :=
  ⟨u, onFilter_ok (geometry_of_ne_off hi h) u⟩

/-- A conditional meaning completes when each of its branches does. -/
theorem ite_completes {p : Prop} [Decidable p] {a b : Result} (ha : p → ∃ t, a = .next t)
    (hb : ¬ p → ∃ t, b = .next t) : ∃ t, (if p then a else b) = .next t := by
  split
  · exact ha ‹_›
  · exact hb ‹_›

/-- Every command completes (60 R129). -/
theorem exec_completes {s : State} (hi : BlockInv s) (i : Instr) : ∃ t, exec i s = .next t := by
  cases i with
  | nop | keyStart | keyUnit => exact ⟨_, rfl⟩
  | hash => exact ⟨_, exec_hash hi⟩
  | add => exact ite_completes (fun _ => ⟨_, rfl⟩) fun h => onFilter_completes hi (ne_off_of_ready h) _
  | test => exact ite_completes (fun _ => ⟨_, rfl⟩) fun h => onFilter_completes hi (ne_off_of_ready h) _
  | popcount => exact ite_completes (fun _ => ⟨_, rfl⟩) fun h => onFilter_completes hi h _
  | configNew | configLoad | commit => exact ite_completes (fun _ => ⟨_, rfl⟩) fun _ => ⟨_, rfl⟩

theorem readArrayData_completes {s : State} (hi : BlockInv s) : ∃ t, readArrayData s = .next t :=
  ite_completes (fun _ => ⟨_, rfl⟩) fun h => ite_completes (fun _ => ⟨_, rfl⟩) fun _ => onFilter_completes hi h _

theorem writeArrayData_completes {s : State} (hi : BlockInv s) (v : Word) : ∃ t, writeArrayData v s = .next t :=
  ite_completes (fun _ => ⟨_, rfl⟩) fun h => ite_completes (fun _ => ⟨_, rfl⟩) fun _ =>
    ite_completes (fun _ => ⟨_, rfl⟩) fun _ => onFilter_completes hi h _

theorem runCommand_completes {s : State} (hi : BlockInv s) (v : Word) : ∃ t, runCommand v s = .next t := by
  unfold runCommand
  split
  · exact exec_completes hi _
  · exact ⟨_, rfl⟩

/-- Every move of the outside world completes (60 R129, 70 R160). -/
theorem perform_completes {s : State} (hi : BlockInv s) (e : HostEvent) : ∃ t, perform e s = .next t := by
  cases e with
  | read o =>
    change ∃ t, hostRead o s = .next t
    unfold hostRead
    split
    · exact ⟨_, rfl⟩
    · rename_i r _
      cases r with
      | arrayData => exact readArrayData_completes hi
      | _ => exact ⟨_, rfl⟩
  | write o v =>
    change ∃ t, hostWrite o v s = .next t
    unfold hostWrite
    split
    · exact ⟨_, rfl⟩
    · rename_i r _
      cases r with
      | cmd => exact runCommand_completes hi v
      | arrayData => exact writeArrayData_completes hi v
      | _ => exact ⟨_, rfl⟩
  | reset cs => exact ⟨_, rfl⟩

/-- Settles O8: a move completes from every state that meets the invariant, and whatever it does keeps it. -/
theorem everyStepKeepsInvariant : Obligations.EveryStepKeepsInvariant := by
  intro s hi
  cases h : s.inbox with
  | nil => exact ⟨s, step_nil h, hi⟩
  | cons e es =>
    obtain ⟨t, ht⟩ := perform_completes (hi.facing es) e
    exact ⟨t, (step_cons h).trans ht, (perform_move ht).keeps_inv (hi.facing es)⟩

end Sys2Proof.Machine

namespace Sys2Proof.Machine

/-! ### States that differ only in what no access can see (10 R23, 70 R147) -/

/-- `s` with another array and other moves to come: the two fields in which `sameVisible` lets states differ. -/
def State.withHidden (b : Memory) (es : List HostEvent) (s : State) : State := { s with buckets := b, inbox := es }

/-- The array `b` and the moves `es` differ from those of `s` only in what no access can see. -/
structure Hides (s : State) (b : Memory) (es : List HostEvent) : Prop where
  inbox_eq : s.inbox.map eraseContents = es.map eraseContents
  read_eq : ∀ w < s.nw, s.buckets.read w = b.read w

theorem sameVisible_withHidden {s : State} {b : Memory} {es : List HostEvent} (h : Hides s b es) :
    sameVisible s (s.withHidden b es) := by
  refine ⟨?_, h.read_eq⟩
  rw [h.inbox_eq]
  rfl

/-- States that agree but for invisible words are one state with another array and other moves to come. -/
theorem eq_withHidden_of_sameVisible {s t : State} (h : sameVisible s t) :
    t = s.withHidden t.buckets t.inbox ∧ Hides s t.buckets t.inbox :=
  have heq := congrArg (State.withHidden t.buckets t.inbox) h.1
  ⟨heq.symm, congrArg State.inbox h.1, h.2⟩

/-- Two moves that differ only in what a reset leaves in the array are equal or are two resets. -/
theorem eq_or_resets_of_eraseContents_eq {e f : HostEvent} (h : eraseContents e = eraseContents f) :
    e = f ∨ ∃ cs ds, e = .reset cs ∧ f = .reset ds := by
  cases e <;> cases f <;> simp_all [eraseContents]

/-- The two answers are next states that agree but for what no access can see, or the same stop. -/
inductive SameOutcome : Result → Result → Prop where
  | next {s : State} {b : Memory} {es : List HostEvent} (h : Hides s b es) :
      SameOutcome (.next s) (.next (s.withHidden b es))
  | fault (r : Fault) : SameOutcome (.fault r) (.fault r)

namespace SameOutcome

theorem ite {p : Prop} [Decidable p] {a b c d : Result} (ht : p → SameOutcome a c) (hf : ¬ p → SameOutcome b d) :
    SameOutcome (if p then a else b) (if p then c else d) := by
  split
  · exact ht ‹_›
  · exact hf ‹_›

theorem onFilter {s u v : State} {b : Memory} {es : List HostEvent}
    (h : s.geometryOk = true → SameOutcome (.next u) (.next v)) :
    SameOutcome (s.onFilter u) ((s.withHidden b es).onFilter v) :=
  ite h fun _ => fault _

theorem sameVisible_of_next {s : State} {r : Result} (h : SameOutcome (.next s) r) :
    ∃ t, r = .next t ∧ sameVisible s t := by
  cases h with
  | next h => exact ⟨_, rfl, sameVisible_withHidden h⟩

end SameOutcome

/-- Setting the same bits in two arrays keeps a word equal that was equal (42 R107). -/
theorem read_parallelSet_congr {a b : Memory} (ha : Memory.wf a) (hb : Memory.wf b) (ls : List Nat) {w : Nat}
    (h : a.read w = b.read w) : (parallelSet a ls).read w = (parallelSet b ls).read w := by
  induction ls generalizing a b with
  | nil => exact h
  | cons l ls ih =>
    rw [parallelSet_cons, parallelSet_cons]
    refine ih (setBit_wf ha l) (setBit_wf hb l) ?_
    rw [read_setBit ha, read_setBit hb, h]

theorem applyReset_nw (s : State) (cs : List (Nat × Word)) : (s.applyReset cs).nw = 0 := by
  simp [State.nw, State.applyReset, State.resetWith]

namespace Hides

variable {s : State} {b : Memory} {es : List HostEvent}

/-- Bits of the filter lie in its visible words, so a test of them sees nothing else (10 R45 item 2). -/
theorem parallelTest_eq (hv : Hides s b es) (g : s.geometryOk = true) {ls : List Nat}
    (hls : ∀ l ∈ ls, l < s.m.toNat) : parallelTest s.buckets ls = parallelTest b ls := by
  obtain ⟨hm, -⟩ := (geometryOk_iff s).mp g
  rw [Bool.eq_iff_iff]
  simp only [parallelTest, List.all_eq_true]
  refine forall₂_congr fun l hl => ?_
  have hw : l / 32 < s.nw := by
    have := hls l hl
    rw [State.nw]
    omega
  rw [testBit_eq, testBit_eq, hv.read_eq _ hw]

/-- POPCOUNT counts visible words only (42 R110). -/
theorem setBits_eq (hv : Hides s b es) : setBits s.buckets s.nw = setBits b s.nw := by
  unfold setBits
  congr 1
  exact List.map_congr_left fun w hw => congrArg popcountWord (hv.read_eq w (List.mem_range.mp hw))

/-- A CONFIG command clears every word that becomes visible (44 R121). -/
theorem configApply (hv : Hides s b es) (n : Nat) (md : OpMode) :
    Hides (s.configApply n md) (b.clearBelow (roundedCapacity s.cap / 32)) es where
  inbox_eq := hv.inbox_eq
  read_eq w hw := by
    have hw' : w < roundedCapacity s.cap / 32 := by
      rw [State.nw, State.configApply_m, BitVec.toNat_ofNat] at hw
      have := Nat.mod_le (roundedCapacity s.cap) (2 ^ 32)
      omega
    rw [State.configApply_buckets, Memory.read_clearBelow, Memory.read_clearBelow, if_pos hw', if_pos hw']

theorem configure (hv : Hides s b es) (n : Nat) (md : OpMode) :
    SameOutcome (s.configure n md) ((s.withHidden b es).configure n md) :=
  .ite (fun _ => .next (hv.configApply n md)) fun _ => .next { hv with }

/-- A reset leaves no visible word, whatever the array holds (70 R146, R147). -/
theorem applyReset (hv : Hides s b es) (cs ds : List (Nat × Word)) :
    Hides (s.applyReset cs) (Memory.ofContents s.params.wMax ds) es where
  inbox_eq := hv.inbox_eq
  read_eq w hw := by
    rw [applyReset_nw] at hw
    exact absurd hw (Nat.not_lt_zero w)

section

variable (hv : Hides s b es) (hi : BlockInv s) (hb : Memory.wf b)
include hv hi hb

theorem execAdd : SameOutcome (execAdd s) (execAdd (s.withHidden b es)) :=
  .ite (fun _ => .next { hv with }) fun _ => .onFilter fun _ =>
    .next ⟨hv.inbox_eq, fun w hw => read_parallelSet_congr hi.buckets_wf hb _ (hv.read_eq w hw)⟩

omit hb in
theorem execTest : SameOutcome (execTest s) (execTest (s.withHidden b es)) :=
  .ite (fun _ => .next { hv with }) fun h => .onFilter fun g => by
    have hp := probes_lt hi (ne_off_of_ready h)
    change SameOutcome _ (.next { (s.withHidden b es).finalize with hit := parallelTest b s.finalize.probes })
    rw [← hv.parallelTest_eq g hp]
    exact .next { hv with }

omit hi hb in
theorem execPopcount : SameOutcome (execPopcount s) (execPopcount (s.withHidden b es)) :=
  .ite (fun _ => .next { hv with }) fun _ => .onFilter fun _ => by
    change SameOutcome _ (.next { s.withHidden b es with pop := BitVec.ofNat 32 (setBits b s.nw) })
    rw [← hv.setBits_eq]
    exact .next { hv with }

theorem exec (i : Instr) : SameOutcome (exec i s) (exec i (s.withHidden b es)) := by
  cases i with
  | nop => exact .next hv
  | keyStart | keyUnit => exact .next { hv with }
  | hash =>
    exact .ite (fun _ => .onFilter fun _ => .next { hv with }) fun _ => .next { hv with }
  | add => exact hv.execAdd hi hb
  | test => exact hv.execTest hi
  | popcount => exact hv.execPopcount
  | configNew n => exact hv.configure n .ready
  | configLoad n => exact hv.configure n .load
  | commit => exact .ite (fun _ => .next { hv with }) fun _ => .next { hv with }

theorem runCommand (v : Word) : SameOutcome (runCommand v s) (runCommand v (s.withHidden b es)) := by
  unfold Machine.runCommand
  cases decode v with
  | ok i => exact hv.exec hi hb i
  | error e => exact .next { hv with }

omit hi hb in
/-- An accepted ARRAY_DATA read returns a visible word (44 R125). -/
theorem readArrayData : SameOutcome (readArrayData s) (readArrayData (s.withHidden b es)) :=
  .ite (fun _ => .next { hv with }) fun _ =>
    .ite (fun _ => .next { hv with }) fun hx => .onFilter fun _ => by
      change SameOutcome _
        (.next { (s.withHidden b es).reply (b.read s.aidx.toNat) with aidx := s.aidx + 1#32 })
      rw [← hv.read_eq _ (Nat.lt_of_not_le hx)]
      exact .next { hv with }

theorem writeArrayData (v : Word) : SameOutcome (writeArrayData v s) (writeArrayData v (s.withHidden b es)) :=
  .ite (fun _ => .next { hv with }) fun _ =>
    .ite (fun _ => .next { hv with }) fun _ =>
      .ite (fun _ => .next { hv with }) fun _ => .onFilter fun _ =>
        .next ⟨hv.inbox_eq, fun w hw => by
          change (s.buckets.write s.aidx.toNat v).read w = (b.write s.aidx.toNat v).read w
          rw [Memory.read_write hi.buckets_wf, Memory.read_write hb, hv.read_eq w hw]⟩

omit hi hb in
theorem hostRead (o : BitVec 8) : SameOutcome (hostRead o s) (hostRead o (s.withHidden b es)) := by
  unfold Machine.hostRead
  cases regAt o with
  | none => exact .next { hv with }
  | some r =>
    cases r with
    | arrayData => exact hv.readArrayData
    | _ => exact .next { hv with }

theorem hostWrite (o : BitVec 8) (v : Word) : SameOutcome (hostWrite o v s) (hostWrite o v (s.withHidden b es)) := by
  unfold Machine.hostWrite
  cases regAt o with
  | none => exact .next { hv with }
  | some r =>
    cases r with
    | cmd => exact hv.runCommand hi hb v
    | arrayData => exact hv.writeArrayData hi hb v
    | _ => exact .next { hv with }

/-- Moves that differ at most in what a reset leaves in the array answer alike. -/
theorem perform {e f : HostEvent} (h : eraseContents e = eraseContents f) :
    SameOutcome (perform e s) (perform f (s.withHidden b es)) := by
  rcases eq_or_resets_of_eraseContents_eq h with rfl | ⟨cs, ds, rfl, rfl⟩
  · cases e with
    | read o => exact hv.hostRead o
    | write o v => exact hv.hostWrite hi hb o v
    | reset cs => exact .next (hv.applyReset cs cs)
  · exact .next (hv.applyReset cs ds)

theorem step : SameOutcome (step s) (step (s.withHidden b es)) := by
  have hx := hv.inbox_eq
  cases hs : s.inbox with
  | nil =>
    obtain rfl : es = [] := by simpa [hs] using hx
    rw [step_nil hs, step_nil (s := s.withHidden b []) rfl]
    exact .next hv
  | cons e rest =>
    cases es with
    | nil => simp [hs] at hx
    | cons f rest' =>
      rw [hs, List.map_cons, List.map_cons, List.cons.injEq] at hx
      obtain ⟨hef, hrest⟩ := hx
      rw [step_cons hs, step_cons (s := s.withHidden b (f :: rest')) rfl]
      have hv' : Hides (s.facing rest) b rest' := ⟨hrest, hv.read_eq⟩
      exact hv'.perform (hi.facing rest) hb hef

end

end Hides

/-- Settles O13: a step reads and writes visible words alike in both states, and what becomes visible is cleared first. -/
theorem invisibleWordsAreUnobservable : Obligations.InvisibleWordsAreUnobservable := by
  intro s t s' hs ht hst hstep
  obtain ⟨heq, hv⟩ := eq_withHidden_of_sameVisible hst
  have h := hv.step hs ht.buckets_wf
  rw [hstep, ← heq] at h
  exact h.sameVisible_of_next

end Sys2Proof.Machine

namespace Sys2Proof.Machine

/-! ### What a command can change -/

namespace CommandMove

variable {s t : State} {i : Instr} (m : CommandMove s i t)
include m

theorem mode_change (h : t.mode ≠ s.mode) :
    (t.mode = .ready ∧ ∃ n, i = .configNew n) ∨ (t.mode = .load ∧ ∃ n, i = .configLoad n) ∨
      (s.mode = .load ∧ t.mode = .ready ∧ i = .commit) := by
  cases m with
  | configNew n => exact .inl ⟨rfl, n, rfl⟩
  | configLoad n => exact .inr (.inl ⟨rfl, n, rfl⟩)
  | commit hm => exact .inr (.inr ⟨hm, rfl, rfl⟩)
  | _ => exact absurd rfl h

theorem size_change (h : t.m ≠ s.m ∨ t.k ≠ s.k) : ∃ n, i = .configNew n ∨ i = .configLoad n := by
  cases m with
  | configNew n => exact ⟨n, .inl rfl⟩
  | configLoad n => exact ⟨n, .inr rfl⟩
  | _ => exact absurd ⟨rfl, rfl⟩ (not_and_or.mpr h)

theorem key_change (h : t.laneA ≠ s.laneA ∨ t.laneB ≠ s.laneB ∨ t.keyLen ≠ s.keyLen) :
    i = .keyStart ∨ ∃ u, i = .keyUnit u := by
  cases m with
  | keyStart => exact .inl rfl
  | keyUnit u => exact .inr ⟨u, rfl⟩
  | _ => simp at h

theorem hash_change (h : t.hashA ≠ s.hashA ∨ t.hashB ≠ s.hashB ∨ t.loc ≠ s.loc) :
    i = .hash ∨ i = .add ∨ i = .test := by
  cases m with
  | hash => exact .inl rfl
  | add => exact .inr (.inl rfl)
  | test => exact .inr (.inr rfl)
  | _ => simp at h

theorem hit_change (h : t.hit ≠ s.hit) : i = .test ∨ ∃ n, i = .configNew n ∨ i = .configLoad n := by
  cases m with
  | test => exact .inl rfl
  | configNew n => exact .inr ⟨n, .inl rfl⟩
  | configLoad n => exact .inr ⟨n, .inr rfl⟩
  | _ => exact absurd rfl h

theorem pop_change (h : t.pop ≠ s.pop) : i = .popcount ∨ ∃ n, i = .configNew n ∨ i = .configLoad n := by
  cases m with
  | popcount => exact .inl rfl
  | configNew n => exact .inr ⟨n, .inl rfl⟩
  | configLoad n => exact .inr ⟨n, .inr rfl⟩
  | _ => exact absurd rfl h

theorem locv_change (h : t.locv ≠ s.locv) :
    i = .hash ∨ i = .add ∨ i = .test ∨ ∃ n, i = .configNew n ∨ i = .configLoad n := by
  cases m with
  | hash => exact .inl rfl
  | add => exact .inr (.inl rfl)
  | test => exact .inr (.inr (.inl rfl))
  | configNew n => exact .inr (.inr (.inr ⟨n, .inl rfl⟩))
  | configLoad n => exact .inr (.inr (.inr ⟨n, .inr rfl⟩))
  | _ => exact absurd rfl h

theorem aidx_change (h : t.aidx ≠ s.aidx) : ∃ n, i = .configNew n ∨ i = .configLoad n := by
  cases m with
  | configNew n => exact ⟨n, .inl rfl⟩
  | configLoad n => exact ⟨n, .inr rfl⟩
  | _ => exact absurd rfl h

/-- No command writes CFG_CAP or LOC_SEL or returns a value (20 R55). -/
theorem host_frame : t.cap = s.cap ∧ t.locSel = s.locSel ∧ t.outbox = s.outbox := by
  cases m <;> exact ⟨rfl, rfl, rfl⟩

end CommandMove

/-! ### What a move can change -/

/-- `t` is `s` but for the array, the registers the host writes, the error record and the returned values: the mode, the size, the
key and every result are the same. -/
def sameResults (s t : State) : Prop :=
  t = { s with
    buckets := t.buckets, aidx := t.aidx, locSel := t.locSel, cap := t.cap, err := t.err, errMulti := t.errMulti
    errCode := t.errCode, outbox := t.outbox }

/-- A move is a command, a reset, or an access that changes neither the mode, the size, the key nor a result. -/
theorem perform_kind {e : HostEvent} {s t : State} (h : perform e s = .next t) :
    (∃ i, isCommand e i ∧ CommandMove s i t) ∨ (∃ cs, e = .reset cs ∧ t = s.applyReset cs) ∨ sameResults s t := by
  cases perform_move h with
  | command v i t hd m => exact .inl ⟨i, ⟨v, rfl, hd⟩, m⟩
  | reset cs => exact .inr (.inl ⟨cs, rfl, rfl⟩)
  | _ => exact .inr (.inr rfl)

/-- Settles O55, by the kinds of a move. -/
theorem modeAndSizeChangeOnlyAsNamed : Obligations.ModeAndSizeChangeOnlyAsNamed := by
  intro e s t h
  rcases perform_kind h with ⟨i, hc, m⟩ | ⟨cs, rfl, rfl⟩ | hk
  · refine ⟨fun hm => ?_, fun hs => ?_⟩
    · rcases m.mode_change hm with ⟨ht, n, rfl⟩ | ⟨ht, n, rfl⟩ | ⟨hs, ht, rfl⟩
      · exact .inl ⟨ht, n, hc⟩
      · exact .inr (.inl ⟨ht, n, hc⟩)
      · exact .inr (.inr (.inl ⟨hs, ht, hc⟩))
    · obtain ⟨n, rfl | rfl⟩ := m.size_change hs
      · exact .inl ⟨n, .inl hc⟩
      · exact .inl ⟨n, .inr hc⟩
  · exact ⟨fun _ => .inr (.inr (.inr ⟨rfl, cs, rfl⟩)), fun _ => .inr ⟨cs, rfl⟩⟩
  · rw [hk]
    exact ⟨fun hm => absurd rfl hm, fun hs => absurd ⟨rfl, rfl⟩ (not_and_or.mpr hs)⟩

/-- Settles O56, by the kinds of a move. -/
theorem resultsChangeOnlyAsNamed : Obligations.ResultsChangeOnlyAsNamed := by
  intro e s t h hr
  rcases perform_kind h with ⟨i, hc, m⟩ | ⟨cs, rfl, -⟩ | hk
  · have is {j : Instr} (h : i = j) : isCommand e j := h ▸ hc
    have config (h : ∃ n, i = .configNew n ∨ i = .configLoad n) :
        ∃ n, isCommand e (.configNew n) ∨ isCommand e (.configLoad n) := h.imp fun _ => Or.imp is is
    exact ⟨fun hx => (m.key_change hx).imp is (Exists.imp fun _ => is),
      fun hx => (m.hash_change hx).imp is (Or.imp is is),
      fun hx => (m.hit_change hx).imp is config,
      fun hx => (m.pop_change hx).imp is config,
      fun hx => (m.locv_change hx).imp is (Or.imp is (Or.imp is config))⟩
  · exact absurd rfl (hr cs)
  · rw [hk]
    simp

namespace Move

variable {s t : State} {e : HostEvent} (m : Move s e t)
include m

/-- A read, accepted or refused, returns one value, and no other move returns any (20 R48). -/
theorem outbox_eq : (∃ o v, e = .read o ∧ t.outbox = s.outbox ++ [v]) ∨
    ((∀ o, e ≠ .read o) ∧ t.outbox = s.outbox) := by
  cases m with
  | readRefused | readValue | readArrayOff | readArrayRange | readArray => exact .inl ⟨_, _, rfl, rfl⟩
  | command v i t _ m => exact .inr ⟨nofun, m.host_frame.2.2⟩
  | _ => exact .inr ⟨nofun, rfl⟩

theorem cap_change (hr : ∀ cs, e ≠ .reset cs) (h : t.cap ≠ s.cap) : ∃ v, e = .write 0x14#8 v := by
  cases m with
  | writeCap v => exact ⟨v, rfl⟩
  | command v i t _ m => exact absurd m.host_frame.1 h
  | reset cs => exact absurd rfl (hr cs)
  | _ => exact absurd rfl h

theorem aidx_change (hr : ∀ cs, e ≠ .reset cs) (h : t.aidx ≠ s.aidx) :
    (∃ v, e = .write 0x30#8 v) ∨ e = .read 0x34#8 ∨ (∃ v, e = .write 0x34#8 v) ∨
      ∃ n, isCommand e (.configNew n) ∨ isCommand e (.configLoad n) := by
  cases m with
  | writeIdx v => exact .inl ⟨v, rfl⟩
  | readArray => exact .inr (.inl rfl)
  | writeArray v => exact .inr (.inr (.inl ⟨v, rfl⟩))
  | command v i t hd m =>
    obtain ⟨n, rfl | rfl⟩ := m.aidx_change h
    · exact .inr (.inr (.inr ⟨n, .inl ⟨v, rfl, hd⟩⟩))
    · exact .inr (.inr (.inr ⟨n, .inr ⟨v, rfl, hd⟩⟩))
  | reset cs => exact absurd rfl (hr cs)
  | _ => exact absurd rfl h

theorem locSel_change (hr : ∀ cs, e ≠ .reset cs) (h : t.locSel ≠ s.locSel) : ∃ v, e = .write 0x3C#8 v := by
  cases m with
  | writeLocSel v => exact ⟨v, rfl⟩
  | command v i t _ m => exact absurd m.host_frame.2.1 h
  | reset cs => exact absurd rfl (hr cs)
  | _ => exact absurd rfl h

end Move

/-- Settles O57, register by register over what a move can do. -/
theorem hostRegistersChangeOnlyAsNamed : Obligations.HostRegistersChangeOnlyAsNamed := by
  intro e s t h
  have m := perform_move h
  exact ⟨perform_params h, perform_inbox h, m.outbox_eq,
    fun hr => ⟨m.cap_change hr, m.aidx_change hr, m.locSel_change hr⟩⟩

/-! ### A READY filter is set-only -/

/-- A move that keeps the filter is no CONFIG command. -/
theorem opcode_of_keepsFilter {e : HostEvent} {i : Instr} (hk : keepsFilter e = true) (hc : isCommand e i) :
    i.opcode ≠ 7 ∧ i.opcode ≠ 8 := by
  obtain ⟨v, rfl, hd⟩ := hc
  simpa [keepsFilter, opField_of_decode hd] using hk

/-- A command other than CONFIG keeps a READY filter READY, its size, and its set bits set (10 R45 item 3). -/
theorem CommandMove.ready_set_only {s t : State} {i : Instr} (m : CommandMove s i t) (hi : BlockInv s)
    (hm : s.mode = .ready) (h7 : i.opcode ≠ 7) (h8 : i.opcode ≠ 8) :
    t.mode = .ready ∧ t.m = s.m ∧ t.k = s.k ∧ ∀ j, s.buckets.testBit j = true → t.buckets.testBit j = true := by
  cases m with
  | add =>
    refine ⟨hm, rfl, rfl, fun j hj => ?_⟩
    rw [testBit_parallelSet hi.buckets_wf, hj, Bool.or_true]
  | configNew => exact absurd rfl h7
  | configLoad => exact absurd rfl h8
  | commit => exact ⟨rfl, rfl, rfl, fun _ => id⟩
  | _ => exact ⟨hm, rfl, rfl, fun _ => id⟩

/-- Settles O58: of the moves that write the array, ADD only sets bits, and an ARRAY_DATA write is refused in READY. -/
theorem readyFilterIsSetOnly : Obligations.ReadyFilterIsSetOnly := by
  intro e s t hi hm hk h
  cases perform_move h with
  | command v i t hd m =>
    obtain ⟨h7, h8⟩ := opcode_of_keepsFilter hk ⟨v, rfl, hd⟩
    exact m.ready_set_only hi hm h7 h8
  | writeArray v hl => simp [hm] at hl
  | reset cs => cases hk
  | _ => exact ⟨hm, rfl, rfl, fun _ => id⟩

end Sys2Proof.Machine

namespace Sys2Proof.Machine

/-! ### Command accesses -/

/-- Settles O6: the step takes the CMD write alone from the inbox, and `exec` takes nothing. -/
theorem stepRunsDecodedCommand : Obligations.StepRunsDecodedCommand := by
  intro s v i es hs hd
  have hstep : step s = exec i (s.facing es) := by
    rw [step_cons hs]
    change runCommand v (s.facing es) = _
    simp only [runCommand, hd]
  exact ⟨hstep, fun t ht => exec_inbox (hstep.symm.trans ht)⟩

/-! ### Reads of one register -/

/-- A read of a register other than ARRAY_DATA returns its value and has no side effect (10 R20). -/
theorem hostRead_reg {r : Reg} (hr : r ≠ .arrayData) (s : State) :
    hostRead (regOffset r) s = .next (s.reply (s.regValue r)) := by
  unfold hostRead
  rw [regAt_regOffset]
  cases r with
  | arrayData => exact absurd rfl hr
  | _ => rfl

/-- A mapped offset other than that of ARRAY_DATA is the offset of a register other than ARRAY_DATA (10 R16). -/
theorem exists_regOffset_eq {o : BitVec 8} (h4 : o.toNat % 4 = 0) (hle : o.toNat ≤ 0x40) (hd : o ≠ 0x34#8) :
    ∃ r ≠ Reg.arrayData, regOffset r = o := by
  obtain ⟨r, hr⟩ := regAt_isSome h4 (by omega)
  refine ⟨r, ?_, regOffset_of_regAt hr⟩
  rintro rfl
  exact hd (regOffset_of_regAt hr).symm

/-- Settles O21, register by register for writes and by `hostRead_reg` for reads. -/
theorem accessTypes : Obligations.AccessTypes := by
  refine ⟨fun o ho v s => ?_, fun s => rfl, fun o s h4 hle hd => ?_⟩
  · fin_cases ho <;> rfl
  · obtain ⟨r, hr, rfl⟩ := exists_regOffset_eq h4 hle hd
    exact ⟨_, hostRead_reg hr s⟩

/-! ### The fields of composed words -/

/-- Bit i of a word as a number. -/
theorem getLsbD_eq_decide (v : Word) (i : Nat) : v.getLsbD i = decide (v.toNat / 2 ^ i % 2 = 1) :=
  Nat.testBit_eq_decide_div_mod_eq

/-- A field set at bit n of a word that ends below bit n is added to it. -/
theorem or_shiftLeft_toNat {x y : Word} {n : Nat} (hx : x.toNat < 2 ^ n) (hy : y.toNat * 2 ^ n < 2 ^ 32) :
    (x ||| y <<< n).toNat = x.toNat + y.toNat * 2 ^ n := by
  rw [BitVec.toNat_or, BitVec.toNat_shiftLeft, Nat.shiftLeft_eq, Nat.mod_eq_of_lt hy, Nat.or_comm, Nat.mul_comm,
    ← Nat.two_pow_add_eq_or_of_lt hx, Nat.add_comm]

theorem bit0_toNat (b : Bool) : (bit0 b).toNat = b.toNat := by cases b <;> rfl

theorem OpMode.code_lt (md : OpMode) : md.code.toNat < 3 := by cases md <;> decide

theorem ErrCode.code_lt (c : ErrCode) : c.code.toNat < 8 := by cases c <;> decide

/-- STATUS as the sum of its fields (10 R27). -/
theorem statusWord_toNat (s : State) : s.statusWord.toNat =
    s.mode.code.toNat + s.locv.toNat * 2 ^ 2 + s.err.toNat * 2 ^ 8 + s.errMulti.toNat * 2 ^ 9 +
      s.errCode.code.toNat * 2 ^ 12 := by
  have hbit (b : Bool) : (bit0 b).toNat < 2 := bit0_toNat b ▸ b.toNat_lt
  have hmode := s.mode.code_lt
  have hlocv := hbit s.locv
  have herr := hbit s.err
  have hmulti := hbit s.errMulti
  have hcode := s.errCode.code_lt
  have h2 := or_shiftLeft_toNat (n := 2) (x := s.mode.code) (y := bit0 s.locv) (by omega) (by omega)
  have h8 := or_shiftLeft_toNat (n := 8) (y := bit0 s.err) (h2.trans_lt (by omega)) (by omega)
  have h9 := or_shiftLeft_toNat (n := 9) (y := bit0 s.errMulti) (h8.trans_lt (by omega)) (by omega)
  have h12 := or_shiftLeft_toNat (n := 12) (y := s.errCode.code) (h9.trans_lt (by omega)) (by omega)
  rw [State.statusWord, h12, h9, h8, h2]
  simp only [bit0_toNat]

/-- PARAM as the sum of its fields (10 R25). -/
theorem paramWord_toNat {s : State} (h : s.params.kMax ≤ 255) : s.paramWord.toNat = s.params.kMax + 256 := by
  have hk : ((BitVec.ofNat 8 s.params.kMax).setWidth 32).toNat = s.params.kMax := by
    rw [BitVec.toNat_setWidth, BitVec.toNat_ofNat]
    omega
  have hor := or_shiftLeft_toNat (x := (BitVec.ofNat 8 s.params.kMax).setWidth 32) (y := 1#32) (n := 8)
    (by omega) (by decide)
  rw [hk] at hor
  exact hor

/-- After reset every register from STATUS on that has a value of its own holds 0 (10 R16, 70 R145). -/
theorem regValue_reset_eq_zero (s : State) (cs : List (Nat × Word)) {r : Reg} (h : 0x0C ≤ (regOffset r).toNat) :
    (s.applyReset cs).regValue r = 0#32 := by
  cases r with
  | id | param | wmax => exact absurd h (by decide)
  | status =>
    simp [State.regValue, State.statusWord, State.applyReset, State.resetWith, OpMode.code, ErrCode.code, bit0]
  | _ => rfl

/-- Settles O11: PARAM and WMAX show the parameters, which a reset keeps, and the registers from STATUS on hold 0. -/
theorem registersReadTheirResetValues : Obligations.RegistersReadTheirResetValues := by
  rintro s _ cs hv ⟨⟩
  obtain ⟨-, hk, -, -⟩ := (params_valid_iff _).mp hv
  refine ⟨rfl, ?_, rfl, fun o h4 hge hle hd => ?_⟩
  · have hw : (BitVec.ofNat 8 s.params.kMax).setWidth 32 = BitVec.ofNat 32 s.params.kMax :=
      BitVec.eq_of_toNat_eq (by simp only [BitVec.toNat_setWidth, BitVec.toNat_ofNat]; omega)
    rw [← hw]
    rfl
  · obtain ⟨r, hr, rfl⟩ := exists_regOffset_eq h4 hle hd
    rw [hostRead_reg hr, regValue_reset_eq_zero s cs hge]

/-- Settles O18, from STATUS as the sum of its fields. -/
theorem statusReadFields : Obligations.StatusReadFields := by
  intro s
  have hv := statusWord_toNat s
  have hmode := s.mode.code_lt
  have hlocv := s.locv.toNat_lt
  have herr := s.err.toNat_lt
  have hmulti := s.errMulti.toNat_lt
  have hcode := s.errCode.code_lt
  have hbool (b : Bool) : decide (b.toNat = 1) = b := by cases b <;> rfl
  refine ⟨s.statusWord, rfl, ?_, ?_, by omega, ?_, ?_, by omega, ?_, by omega⟩
  · have hf : s.statusWord.toNat % 4 = s.mode.code.toNat := by omega
    rw [hf]
    cases s.mode <;> rfl
  · rw [getLsbD_eq_decide, ← hbool s.locv, decide_eq_decide]
    omega
  · rw [getLsbD_eq_decide, ← hbool s.err, decide_eq_decide]
    omega
  · rw [getLsbD_eq_decide, ← hbool s.errMulti, decide_eq_decide]
    omega
  · have hf : s.statusWord.toNat / 4096 % 16 = s.errCode.code.toNat := by omega
    rw [hf]
    cases s.errCode <;> rfl

/-- Settles O19: PARAM from the sum of its fields, the others as the state holds them. -/
theorem registerViews : Obligations.RegisterViews := by
  intro s
  refine ⟨rfl, fun hv => ?_, ⟨s.k.setWidth 32, rfl, ?_, ?_⟩, rfl, rfl, rfl, rfl, rfl, rfl⟩
  · obtain ⟨-, hk, -, hw⟩ := (params_valid_iff _).mp hv
    have hp := paramWord_toNat hk
    refine ⟨⟨s.paramWord, rfl, by omega, by omega, by omega⟩, BitVec.ofNat 32 s.params.wMax, rfl, ?_⟩
    rw [BitVec.toNat_ofNat]
    omega
  · rw [BitVec.toNat_setWidth]
    omega
  · rw [BitVec.toNat_setWidth]
    omega

/-- Settles O24: the invariant puts the location of a valid lane below m, so it fits a word. -/
theorem locDataRead : Obligations.LocDataRead := by
  intro s hi
  refine ⟨s.locDataWord, rfl, ?_⟩
  unfold State.locDataWord
  split
  · rename_i h
    have hlt := (hi.locv_below h.1).2 _ h.2
    rw [BitVec.toNat_ofNat]
    exact Nat.mod_eq_of_lt (by omega)
  · rfl

/-! ### Writes of one register -/

/-- Settles O17, bit by bit of the written word. -/
theorem statusWriteAcknowledges : Obligations.StatusWriteAcknowledges := by
  intro v s
  have h8 := getLsbD_eq_decide v 8
  have h9 := getLsbD_eq_decide v 9
  exact ⟨s.ackErrors v, rfl, by simp_all, by simp_all, by simp_all, by simp_all, rfl⟩

/-- Acknowledging twice acknowledges no more (20 R57). -/
theorem ackErrors_ackErrors (v : Word) (s : State) : (s.ackErrors v).ackErrors v = s.ackErrors v := by
  unfold State.ackErrors
  congr 1 <;> split <;> rfl

/-- Settles O23: each write stores its value, and storing it again stores the same. -/
theorem readWriteRegisters : Obligations.ReadWriteRegisters := by
  intro v s
  refine ⟨rfl, rfl, rfl, rfl, rfl, ?_, fun o ho => ?_⟩
  · rw [BitVec.ofNat_toNat]
    rfl
  simp only [List.mem_cons, List.not_mem_nil, or_false] at ho
  rcases ho with rfl | rfl | rfl | rfl
  · exact ⟨{ s with cap := v }, rfl, rfl⟩
  · exact ⟨{ s with aidx := v }, rfl, rfl⟩
  · exact ⟨{ s with locSel := v.extractLsb' 0 8 }, rfl, rfl⟩
  · exact ⟨s.ackErrors v, rfl, congrArg Host.Outcome.next (ackErrors_ackErrors v s)⟩

end Sys2Proof.Machine

namespace Sys2Proof.Machine

/-! ### The words a move stores to (20 R55) -/

/-- Clearing changes no word at or above its bound. -/
theorem Memory.lt_of_read_clearBelow_ne {b : Memory} {n w : Nat}
    (h : Memory.read (Memory.clearBelow b n) w ≠ Memory.read b w) : w < n := by
  by_contra hw
  exact h (by rw [read_clearBelow, if_neg hw])

/-- A parallel set changes no word but those of its locations. -/
theorem exists_bitWord_of_read_parallelSet_ne {b : Memory} {ls : List Nat} {w : Nat}
    (h : Memory.read (parallelSet b ls) w ≠ Memory.read b w) : ∃ l ∈ ls, bitWord l = w := by
  by_contra! hw
  exact h (read_parallelSet_untouched b ls hw)

/-- The words a command can change: those of the probes for ADD, those below the new nw for the CONFIG commands. -/
theorem CommandMove.word_change {s t : State} {i : Instr} {w : Nat} (m : CommandMove s i t)
    (h : t.buckets.read w ≠ s.buckets.read w) :
    (i = .add ∧ ∃ l ∈ s.finalize.probes, bitWord l = w) ∨
      ((∃ n, i = .configNew n ∨ i = .configLoad n) ∧ w < roundedCapacity s.cap / 32) := by
  cases m with
  | add => exact .inl ⟨rfl, exists_bitWord_of_read_parallelSet_ne h⟩
  | configNew n => exact .inr ⟨⟨n, .inl rfl⟩, Memory.lt_of_read_clearBelow_ne h⟩
  | configLoad n => exact .inr ⟨⟨n, .inr rfl⟩, Memory.lt_of_read_clearBelow_ne h⟩
  | _ => exact absurd rfl h

/-- The words a move can change: the one ARRAY_IDX names for an ARRAY_DATA write, its command's own, or any for a reset. -/
theorem Move.word_change {s t : State} {e : HostEvent} {w : Nat} (m : Move s e t)
    (h : t.buckets.read w ≠ s.buckets.read w) :
    ((∃ v, e = .write 0x34#8 v) ∧ w = s.aidx.toNat) ∨ (∃ i, isCommand e i ∧ CommandMove s i t) ∨
      ∃ cs, e = .reset cs := by
  cases m with
  | writeArray v =>
    refine .inl ⟨⟨v, rfl⟩, ?_⟩
    by_contra hw
    exact h (Memory.read_write_other s.buckets s.aidx.toNat v hw)
  | command v i t hd m => exact .inr (.inl ⟨i, ⟨v, rfl, hd⟩, m⟩)
  | reset cs => exact .inr (.inr ⟨cs, rfl⟩)
  | _ => exact absurd rfl h

/-- No command changes the parameters. -/
theorem exec_params {i : Instr} {s t : State} (h : exec i s = .next t) : t.params = s.params := by
  cases exec_move h <;> rfl

/-- Settles O40, from the laws of write, clearing and reset contents, and one list for one content. -/
theorem arrayWordLaws : Obligations.ArrayWordLaws :=
  ⟨fun _ w u v hb => ⟨Memory.write_wf hb w v, Memory.read_write hb w u v⟩,
    fun b n w hb => ⟨Memory.clearBelow_wf hb n, Memory.read_clearBelow b n w⟩,
    fun n cs => (Memory.ofContents_wf n cs).1,
    fun _ _ => Memory.eq_of_read_eq⟩

/-- Settles O59: only ADD and the CONFIG commands change a word, and only the CONFIG commands ARRAY_IDX, m or k. -/
theorem frameOfCommandsThatStoreNothing : Obligations.FrameOfCommandsThatStoreNothing := by
  intro c s t hadd hnew hload h
  have m := exec_move h
  have hconfig : ¬ ∃ n, c = .configNew n ∨ c = .configLoad n := by
    rintro ⟨n, hc | hc⟩
    · exact hnew n hc
    · exact hload n hc
  have hwords (w : Nat) : t.buckets.read w = s.buckets.read w := by
    by_contra hw
    rcases m.word_change hw with ⟨hc, -⟩ | ⟨hc, -⟩
    · exact hadd hc
    · exact hconfig hc
  obtain ⟨hcap, hsel, hout⟩ := m.host_frame
  have haidx : t.aidx = s.aidx := not_not.mp (mt m.aidx_change hconfig)
  obtain ⟨hm, hk⟩ : t.m = s.m ∧ t.k = s.k := by simpa using mt m.size_change hconfig
  exact ⟨hwords, hcap, haidx, hsel, hm, hk, hout, exec_params h, exec_inbox h⟩

/-- Settles O60, from the words that a command and a move can change. -/
theorem frameOfStoringMoves : Obligations.FrameOfStoringMoves := by
  refine ⟨fun s t w h hprobes => by_contra fun hw => ?_, fun s t n w h hle => by_contra fun hw => ?_,
    fun s t v w h hidx => by_contra fun hw => ?_⟩
  · rcases (exec_move h).word_change hw with ⟨-, l, hl, hlw⟩ | ⟨⟨n, hc | hc⟩, -⟩
    · exact hprobes l hl hlw
    · cases hc
    · cases hc
  · obtain ⟨i, hi, m⟩ : ∃ i, i ≠ .add ∧ CommandMove s i t := by
      rcases h with h | h
      · exact ⟨.configNew n, nofun, exec_move h⟩
      · exact ⟨.configLoad n, nofun, exec_move h⟩
    rcases m.word_change hw with ⟨hc, -⟩ | ⟨-, hlt⟩
    · exact hi hc
    · omega
  · rcases (perform_move (e := .write 0x34#8 v) h).word_change hw with ⟨-, hc⟩ | ⟨i, ⟨v', hc, -⟩, -⟩ | ⟨cs, hc⟩
    · exact hidx hc
    · cases hc
    · cases hc

/-! ### Accesses (20 R49 to R51, R61) -/

/-- Settles O7: a move takes nothing from the inbox beyond what the step took. -/
theorem stepPerformsOldestAccess : Obligations.StepPerformsOldestAccess :=
  ⟨fun _ => step_nil, fun _ _ _ hs => ⟨step_cons hs, fun _ ht => perform_inbox ((step_cons hs).symm.trans ht)⟩⟩

/-- A byte lane as a number. -/
theorem busLane_toNat (v : Word) (j : Nat) : (busLane v j).toNat = v.toNat / 2 ^ (8 * j) % 256 := by
  rw [busLane, BitVec.extractLsb'_toNat, Nat.shiftRight_eq_div_pow]

/-- Neighbouring byte lanes join into one longer part of the word, and all four into the whole word. -/
theorem ofBusLanes_busLane (v : Word) : ofBusLanes (busLane v 0) (busLane v 1) (busLane v 2) (busLane v 3) = v := by
  unfold ofBusLanes busLane
  rw [BitVec.extractLsb'_append_extractLsb'_eq_extractLsb' (show 8 * 3 = 8 * 2 + 8 from rfl),
    BitVec.extractLsb'_append_extractLsb'_eq_extractLsb' (show 8 * 2 = 8 * 1 + 8 from rfl),
    BitVec.extractLsb'_append_extractLsb'_eq_extractLsb' (show 8 * 1 = 8 * 0 + 8 from rfl)]
  exact BitVec.extractLsb'_eq_self

/-- Settles O20, from one lane as a number and the four lanes joined. -/
theorem busLanesCarryTheWord : Obligations.BusLanesCarryTheWord :=
  fun v => ⟨fun j _ => busLane_toNat v j, ofBusLanes_busLane v⟩

/-- Settles O22: such an offset names no register. -/
theorem misalignedAndUnmappedAccesses : Obligations.MisalignedAndUnmappedAccesses := by
  intro o v s h
  have hnone := regAt_eq_none h
  constructor
  · rw [hostRead, hnone]
    rfl
  · rw [hostWrite, hnone]

end Sys2Proof.Machine

namespace Sys2Proof

/-! ### Command words as numbers (30 R69 to R74, R81) -/

/-- The operand of each command as a number, 0 for a command that has none (30 R73). -/
def Instr.operand : Instr → Nat
  | .keyUnit u => u.toNat
  | .configNew k | .configLoad k => k
  | _ => 0

/-- An operand that the assembler accepts stays below the opcode field. -/
theorem Instr.operand_lt {i : Instr} (h : i.wf = true) : i.operand < 2 ^ 28 := by
  cases i with
  | keyUnit u => exact u.isLt.trans (by decide)
  | configNew k | configLoad k => exact (of_decide_eq_true h : k ≤ 255).trans_lt (by decide)
  | _ => exact Nat.two_pow_pos 28

/-- The command word is the opcode in bits 31 to 28 with the operand below it (30 R81). -/
theorem encode_toNat {i : Instr} (h : i.wf = true) : (encode i).toNat = i.opcode * 2 ^ 28 + i.operand := by
  have hx := i.operand_lt h
  cases i with
  | keyUnit u =>
    have hu : u.setWidth 32 = BitVec.ofNat 32 u.toNat := BitVec.eq_of_toNat_eq (by simp)
    rw [encode, hu]
    exact opcode_or_operand_toNat (c := 2) (by decide) hx
  | configNew k => exact opcode_or_operand_toNat (c := 7) (by decide) hx
  | configLoad k => exact opcode_or_operand_toNat (c := 8) (by decide) hx
  | _ => rfl

/-- An opcode below 0xA has a command, so its words decode exactly when no reserved bit is set (30 R75, R76). -/
theorem exists_decode_of_reserved_clear {v : Word} (ho : opField v < 10)
    (hz : v &&& rsvdMask (opField v) = 0#32) : ∃ i, commandOf (opField v) v = some i ∧ decode v = .ok i := by
  obtain ⟨i, hi⟩ := Option.ne_none_iff_exists'.mp fun h => Nat.not_le_of_lt ho (commandOf_eq_none.mp h)
  exact ⟨i, hi, (decode_ok_iff v i).mpr ⟨hi, hz⟩⟩

/-- The fields of a command word give back the command (30 R73, R81). -/
theorem commandOf_encode {i : Instr} (h : i.wf = true) : commandOf i.opcode (encode i) = some i := by
  have hv := encode_toNat h
  have hk (n : Nat) : n ≤ 255 → (encode i).toNat = i.opcode * 2 ^ 28 + n → kField (encode i) = n := by
    rw [kField_eq]
    omega
  cases i with
  | keyUnit u =>
    have hu : unitField (encode (.keyUnit u)) = u := by
      have := u.isLt
      apply BitVec.eq_of_toNat_eq
      rw [unitField_eq, BitVec.toNat_ofNat, hv, Instr.operand]
      omega
    exact congrArg (some ∘ Instr.keyUnit) hu
  | configNew k => exact congrArg (some ∘ Instr.configNew) (hk k (of_decide_eq_true h) hv)
  | configLoad k => exact congrArg (some ∘ Instr.configLoad) (hk k (of_decide_eq_true h) hv)
  | _ => rfl

/-- The encoding of a command carries its opcode and no reserved bit (30 R69 to R72), case by case of `Laws.Opcode`. -/
theorem opcode_statement (i : Instr) : Laws.Opcode.Statement i := by
  cases i with
  | nop => exact Laws.Opcode.nop
  | keyStart => exact Laws.Opcode.keyStart
  | keyUnit u => exact Laws.Opcode.keyUnit u
  | hash => exact Laws.Opcode.hash
  | add => exact Laws.Opcode.add
  | test => exact Laws.Opcode.test
  | popcount => exact Laws.Opcode.popcount
  | configNew k => exact Laws.Opcode.configNew k
  | configLoad k => exact Laws.Opcode.configLoad k
  | commit => exact Laws.Opcode.commit

/-- Settles O1: the opcode and the operand of a command word give the command, and its reserved bits are clear. -/
theorem decodeInvertsEncode : Obligations.DecodeInvertsEncode := by
  intro i h
  obtain ⟨ho, hz⟩ := opcode_statement i h
  rw [decode_ok_iff, ho]
  exact ⟨commandOf_encode h, hz⟩

/-- The assembler accepts whatever a word's fields give, since K has 8 bits (30 R73, R81). -/
theorem wf_of_commandOf {op : Nat} {v : Word} {i : Instr} (h : commandOf op v = some i) : i.wf = true := by
  have hk : kField v ≤ 255 := by
    rw [kField_eq]
    omega
  obtain rfl := opcode_of_commandOf h
  cases i with
  | configNew k | configLoad k =>
    cases h
    exact decide_eq_true hk
  | _ => rfl

/-- With its reserved bits clear, a word is no more than its opcode and its operand. -/
theorem toNat_of_decode {v : Word} {i : Instr} (h : decode v = .ok i) :
    v.toNat = i.opcode * 2 ^ 28 + i.operand := by
  obtain ⟨hc, hz⟩ := (decode_ok_iff v i).mp h
  have ho := opField_of_decode h
  have hx : i.operand = v.toNat % 2 ^ 28 := by
    rw [reserved_clear_iff, ho] at hz
    rw [ho] at hc
    cases i with
    | keyUnit u =>
      cases hc
      change v.toNat % 2 ^ 28 / 2 ^ 16 = 0 at hz
      rw [Instr.operand, unitField_eq, BitVec.toNat_ofNat]
      omega
    | configNew k | configLoad k =>
      cases hc
      change v.toNat % 2 ^ 28 / 2 ^ 8 = 0 at hz
      rw [Instr.operand, kField_eq]
      omega
    | _ => simpa [Instr.opcode, Instr.operand] using hz.symm
  rw [opField_eq] at ho
  omega

/-- Settles O2: a word that decodes and the encoding of its command are the same opcode and operand. -/
theorem encodeInvertsDecode : Obligations.EncodeInvertsDecode := by
  intro v i h
  have hw := wf_of_commandOf ((decode_ok_iff v i).mp h).1
  exact ⟨hw, BitVec.eq_of_toNat_eq ((encode_toNat hw).trans (toNat_of_decode h).symm)⟩

/-! ### The opcode map (30 R74) -/

/-- The rows stand in the order of their opcodes, under the mnemonics of their commands. -/
theorem exists_opcodeMap_row (i : Instr) : ∃ r, opcodeMap[i.opcode]? = some r ∧ r.mnemonic = i.mnemonic := by
  cases i <;> exact ⟨_, rfl, rfl⟩

/-- The row of an opcode masks the opcode field and the reserved bits of its format, and asks for that opcode and zeros. -/
theorem opcodeMap_row {c : Nat} {r : OpcodeRow} (h : opcodeMap[c]? = some r) :
    c < 10 ∧ r.mask = 0xF0000000#32 ||| rsvdMask c ∧ r.pattern = BitVec.ofNat 32 (c * 2 ^ 28) := by
  obtain ⟨hc, rfl⟩ := List.getElem?_eq_some_iff.mp h
  change c < 10 at hc
  refine ⟨hc, ?_⟩
  interval_cases c <;> exact ⟨rfl, rfl⟩

/-- The opcode field in place (30 R69). -/
theorem and_opcode_mask (v : Word) : v &&& 0xF0000000#32 = BitVec.ofNat 32 (opField v * 2 ^ 28) := by
  have hsplit : v = v.extractLsb' 28 4 ++ v.extractLsb' 0 28 :=
    ((BitVec.extractLsb'_append_extractLsb'_eq_extractLsb' (show 28 = 0 + 28 from rfl)).trans BitVec.extractLsb'_eq_self).symm
  calc v &&& 0xF0000000#32
    _ = (v.extractLsb' 28 4 ++ v.extractLsb' 0 28) &&& (BitVec.allOnes 4 ++ 0#28) := congrArg (· &&& 0xF0000000#32) hsplit
    _ = v.extractLsb' 28 4 ++ 0#28 := by rw [BitVec.and_append, BitVec.and_allOnes, BitVec.and_zero]
    _ = BitVec.ofNat 32 (opField v * 2 ^ 28) := BitVec.eq_of_toNat_eq (by
      have := (v.extractLsb' 28 4).isLt
      rw [BitVec.toNat_append, BitVec.toNat_zero, Nat.or_zero, Nat.shiftLeft_eq, BitVec.toNat_ofNat, opField]
      omega)

/-- A row matches exactly the words of its opcode with no reserved bit set. -/
theorem row_matches_iff {c : Nat} {r : OpcodeRow} (h : opcodeMap[c]? = some r) (v : Word) :
    v &&& r.mask = r.pattern ↔ opField v = c ∧ v &&& rsvdMask c = 0#32 := by
  obtain ⟨hc, hmask, hpat⟩ := opcodeMap_row h
  have ho : opField v < 16 := (v.extractLsb' 28 4).isLt
  have hx : (v &&& rsvdMask c).toNat < 2 ^ 28 := by
    have hr : (rsvdMask c).toNat < 2 ^ 28 := by interval_cases c <;> decide
    rw [BitVec.toNat_and]
    exact Nat.and_le_right.trans_lt hr
  have hor := opcode_or_operand_toNat ho hx
  rw [BitVec.ofNat_toNat, BitVec.setWidth_eq] at hor
  rw [hmask, hpat, BitVec.and_or_distrib_left, and_opcode_mask, ← BitVec.toNat_inj, hor, ← BitVec.toNat_inj,
    BitVec.toNat_ofNat, BitVec.toNat_zero]
  omega

/-- Settles O3: a row matches by the opcode and the reserved bits, which is how the decoder decides. -/
theorem decoderAgreesWithOpcodeMap : Obligations.DecoderAgreesWithOpcodeMap := by
  refine ⟨fun v i h => ?_, fun v r hr hv => ?_, ?_⟩
  · obtain ⟨r, hr, hm⟩ := exists_opcodeMap_row i
    have ho := opField_of_decode h
    exact ⟨r, List.mem_of_getElem? hr, hm, (row_matches_iff hr v).mpr ⟨ho, ho ▸ ((decode_ok_iff v i).mp h).2⟩⟩
  · obtain ⟨c, hc⟩ := List.mem_iff_getElem?.mp hr
    obtain ⟨rfl, hz⟩ := (row_matches_iff hc v).mp hv
    obtain ⟨i, -, hd⟩ := exists_decode_of_reserved_clear (opcodeMap_row hc).1 hz
    obtain ⟨q, hq, hm⟩ := exists_opcodeMap_row i
    rw [← opField_of_decode hd, hc, Option.some.injEq] at hq
    exact ⟨i, hd, hq ▸ hm.symm⟩
  · rw [List.pairwise_iff_getElem]
    intro a b ha hb hab v hva hvb
    have hoa := ((row_matches_iff (List.getElem?_eq_getElem ha) v).mp hva).1
    have hob := ((row_matches_iff (List.getElem?_eq_getElem hb) v).mp hvb).1
    omega

/-- Settles O5: four words are encodings, and the others carry a reserved bit and a reserved opcode. -/
theorem sampleWordsDecode : Obligations.SampleWordsDecode :=
  ⟨decodeInvertsEncode (.keyUnit 0x0078#16) rfl, decodeInvertsEncode (.configNew 2) rfl,
    decodeInvertsEncode (.configLoad 3) rfl, decodeInvertsEncode .commit rfl,
    (decode_rsvdField_iff _).mpr (by decide), (decode_illegalOp_iff _).mpr (by decide)⟩

end Sys2Proof

namespace Sys2Proof.Machine

/-- The commands in the order of their opcodes, with the operands as numbers (30 R73, R74). -/
theorem commandOf_eq_getElem? {op : Nat} {v : Word} (h : op < 10) : commandOf op v =
    [.nop, .keyStart, .keyUnit (BitVec.ofNat 16 (v.toNat % 65536)), .hash, .add, .test, .popcount,
      .configNew (v.toNat % 256), .configLoad (v.toNat % 256), .commit][op]? := by
  have hu : unitField v = BitVec.ofNat 16 (v.toNat % 65536) := by 
    rw [unitField_eq]
    exact BitVec.eq_of_toNat_eq (by simp)
  rw [← hu, ← kField_eq]
  interval_cases op <;> rfl

/-- A CMD write of a word that is no command records its decode error (30 R79). -/
theorem runCommand_of_error {v : Word} {e : DecodeError} (h : decode v = .error e) (s : State) :
    runCommand v s = .next (s.raiseError (decodeErrCode e)) := by
  rw [runCommand, h]

/-- A CMD write of a command's word executes the command (30 R79). -/
theorem runCommand_of_ok {v : Word} {i : Instr} (h : decode v = .ok i) (s : State) : runCommand v s = exec i s := by
  rw [runCommand, h]

/-- Settles O4: the opcode and the reserved bits decide what the word decodes to, and that decides what the write does. -/
theorem commandWriteExecutesOrRefuses : Obligations.CommandWriteExecutesOrRefuses := by
  rintro v s op rsvd hop (rfl : rsvd = rsvdMask op)
  rw [← opField_eq] at hop
  subst hop
  refine ⟨fun h => ?_, fun h hz => ?_, fun h hz => ?_⟩
  · exact runCommand_of_error ((decode_illegalOp_iff v).mpr h) s
  · exact runCommand_of_error ((decode_rsvdField_iff v).mpr ⟨h, hz⟩) s
  · obtain ⟨i, hc, hd⟩ := exists_decode_of_reserved_clear h hz
    exact ⟨i, (commandOf_eq_getElem? h).symm.trans hc, hd, runCommand_of_ok hd s⟩

end Sys2Proof.Machine

namespace Sys2Proof.Machine

/-! ### A move that is a command -/

/-- A CMD write of a command's word executes the command (30 R79). -/
theorem perform_of_isCommand {e : HostEvent} {i : Instr} (h : isCommand e i) (s : State) : perform e s = exec i s := by
  obtain ⟨v, rfl, hd⟩ := h
  exact (perform_write_reg .cmd v s).trans (runCommand_of_ok hd s)

/-- A move gives the unit c exactly when it is the command KEY_UNIT c. -/
theorem unitIn_eq_some_iff {e : HostEvent} {c : CodeUnit} : unitIn e = some c ↔ isCommand e (.keyUnit c) := by
  refine ⟨fun h => ?_, fun ⟨v, he, hd⟩ => by simp [unitIn, he, hd]⟩
  cases e with
  | read | reset => cases h
  | write o v =>
    rw [unitIn] at h
    split at h
    · split at h
      · cases h
        exact ⟨v, by rw [‹o = _›], ‹_›⟩
      · cases h
      · cases h
    · cases h

theorem unitsIn_cons (e : HostEvent) (es : List HostEvent) : unitsIn (e :: es) = (unitIn e).toList ++ unitsIn es := by
  rw [unitsIn, List.filterMap_cons]
  cases unitIn e <;> rfl

/-! ### The key that the moves build (40 R92 to R94) -/

/-- The block has taken exactly the units u for the current key: the lanes have folded them and KEY_LEN has counted them. -/
structure HoldsKey (s : State) (u : List CodeUnit) : Prop where
  currentKey : s.currentKey u
  keyLen : s.keyLen = BitVec.ofNat 32 u.length

/-- Appending a unit to a key folds it into the accumulator (40 R83). -/
theorem hashAcc_concat (o : Config.UnitOrder) (seed : Word) (u : List CodeUnit) (c : CodeUnit) :
    hashAcc o seed (u ++ [c]) = foldUnit o (hashAcc o seed u) c := List.foldl_concat ..

namespace HoldsKey

variable {s t : State} {u : List CodeUnit}

/-- KEY_START begins the empty key (40 R92). -/
theorem of_keyStart (h : exec .keyStart s = .next t) : HoldsKey t [] := by
  cases h
  exact ⟨⟨rfl, rfl⟩, rfl⟩

/-- KEY_UNIT appends its unit to the key (40 R93). -/
theorem after_keyUnit {c : CodeUnit} (hk : HoldsKey s u) (h : exec (.keyUnit c) s = .next t) : HoldsKey t (u ++ [c]) := by
  obtain ⟨⟨hA, hB⟩, hlen⟩ := hk
  cases h
  refine ⟨⟨?_, ?_⟩, ?_⟩
  · rw [hashAcc_concat, ← hA]
  · rw [hashAcc_concat, ← hB]
  · rw [List.length_append, BitVec.ofNat_add, ← hlen]
    rfl

/-- No move but KEY_START, KEY_UNIT and reset touches the key (10 R44). -/
theorem after_other {e : HostEvent} (hk : HoldsKey s u) (h : perform e s = .next t)
    (hstart : ¬ isCommand e .keyStart) (hreset : ∀ cs, e ≠ .reset cs) (hunit : unitIn e = none) : HoldsKey t u := by
  have hkey := mt (resultsChangeOnlyAsNamed e s t h hreset).1 <| by
    rintro (hc | ⟨c, hc⟩)
    · exact hstart hc
    · cases hunit.symm.trans (unitIn_eq_some_iff.mpr hc)
  simp only [not_or, not_not] at hkey
  obtain ⟨hA, hB, hlen⟩ := hkey
  obtain ⟨⟨hkA, hkB⟩, hklen⟩ := hk
  have hp := perform_params h
  exact ⟨⟨by rw [hA, hp, hkA], by rw [hB, hp, hkB]⟩, hlen.trans hklen⟩

/-- A move appends the unit it gives, if it gives one. -/
theorem after_move {e : HostEvent} (hk : HoldsKey s u) (h : perform e s = .next t)
    (hstart : ¬ isCommand e .keyStart) (hreset : ∀ cs, e ≠ .reset cs) : HoldsKey t (u ++ (unitIn e).toList) := by
  cases hc : unitIn e with
  | none => simpa using hk.after_other h hstart hreset hc
  | some c =>
    rw [perform_of_isCommand (unitIn_eq_some_iff.mp hc)] at h
    exact hk.after_keyUnit h

/-- A run appends the units of its moves. -/
theorem after_run {es : List HostEvent} (hk : HoldsKey s u) (h : runAll s es = .next t)
    (hes : ∀ e ∈ es, ¬ isCommand e .keyStart ∧ ∀ cs, e ≠ .reset cs) : HoldsKey t (u ++ unitsIn es) := by
  induction es generalizing s u with
  | nil =>
    rw [runAll_nil] at h
    cases h
    rw [unitsIn, List.filterMap_nil, List.append_nil]
    exact ⟨hk.currentKey, hk.keyLen⟩
  | cons e es ih =>
    obtain ⟨r, hr, hrun⟩ := runAll_cons_next h
    obtain ⟨⟨hstart, hreset⟩, hes⟩ := List.forall_mem_cons.mp hes
    rw [unitsIn_cons, ← List.append_assoc]
    exact ih (hk.after_move hr hstart hreset) hrun hes

end HoldsKey

/-! ### Runs complete -/

/-- A run of any moves completes, and keeps the invariant (60 R129). -/
theorem runAll_completes {s : State} (hi : BlockInv s) (es : List HostEvent) : ∃ t, runAll s es = .next t ∧ BlockInv t := by
  induction es generalizing s with
  | nil => exact ⟨_, rfl, hi.facing []⟩
  | cons e es ih =>
    obtain ⟨r, hr⟩ := perform_completes hi e
    rw [runAll_cons es hr]
    exact ih ((perform_move hr).keeps_inv hi)

/-- A run keeps the parameters. -/
theorem runAll_params {s t : State} {es : List HostEvent} (h : runAll s es = .next t) : t.params = s.params :=
  runAll_keeps (P := fun r => r.params = s.params) (fun _ _ => id) (fun _ _ _ hr => (perform_params hr).trans) h rfl

/-- Settles O32: KEY_START begins the empty key, every move appends the unit it gives, and HASH mixes the lanes. -/
theorem streamingEqualsBatch : Obligations.StreamingEqualsBatch := by
  intro s es hi hes
  obtain ⟨t, ht, hit⟩ := runAll_completes hi (.write 0x10#8 0x10000000#32 :: es)
  obtain ⟨r, hr, hrun⟩ := runAll_cons_next ht
  have hstart : isCommand (.write 0x10#8 0x10000000#32) .keyStart := ⟨_, rfl, decodeInvertsEncode .keyStart rfl⟩
  rw [perform_of_isCommand hstart] at hr
  obtain ⟨⟨hA, hB⟩, hlen⟩ := (HoldsKey.of_keyStart hr).after_run hrun hes
  refine ⟨t, t.finalize, ht, ⟨hA, hB⟩, hlen, exec_hash hit, ?_, ?_⟩
  · rw [State.finalize_hashA, hA, runAll_params ht]
    rfl
  · rw [State.finalize_hashB, hB, runAll_params ht]
    rfl

/-! ### The words of a command (30 R70 to R76) -/

/-- A CMD write of an opcode's word executes its command on the operand below, or is refused for a bit above the operand. -/
theorem hostWrite_of_opcode {op bits : Nat} {i : Nat → Instr} (hbits : bits ≤ 28)
    (hc : ∀ v, commandOf op v = some (i (v.toNat % 2 ^ bits)))
    (hm : rsvdMask op = BitVec.ofNat 32 (2 ^ 28 - 2 ^ bits)) (v : Word) (s : State) (ho : v.toNat / 2 ^ 28 = op) :
    hostWrite 0x10#8 v s = if v.toNat % 2 ^ 28 / 2 ^ bits = 0 then exec (i (v.toNat % 2 ^ bits)) s
      else .next (s.raiseError .rsvdField) := by
  rw [← opField_eq] at ho
  subst ho
  have hz := and_reserved_eq_zero v hbits
  rw [← hm] at hz
  change runCommand v s = _
  split
  · exact runCommand_of_ok ((decode_ok_iff v _).mpr ⟨hc v, hz.mpr ‹_›⟩) s
  · have hlt : opField v < 10 := by
      by_contra hge
      cases (commandOf_eq_none.mpr (Nat.le_of_not_lt hge)).symm.trans (hc v)
    exact runCommand_of_error ((decode_rsvdField_iff v).mpr ⟨hlt, mt hz.mp ‹_›⟩) s

/-- A command whose opcode reads no operand is written as its opcode alone (30 R70). -/
theorem isPlainCommand_of_commandOf {op : Nat} {i : Instr} (he : encode i = BitVec.ofNat 32 (op * 2 ^ 28))
    (hc : ∀ v, commandOf op v = some i) (hm : rsvdMask op = 0x0FFFFFFF#32) : isPlainCommand op i :=
  ⟨he, fun v s ho => by simpa using hostWrite_of_opcode (bits := 0) (i := fun _ => i) (by decide) hc hm v s ho⟩

/-- The command word as its opcode and its operand (30 R81). -/
theorem encode_eq_ofNat {i : Instr} (h : i.wf = true) : encode i = BitVec.ofNat 32 (i.opcode * 2 ^ 28 + i.operand) := by
  rw [← encode_toNat h, BitVec.ofNat_toNat, BitVec.setWidth_eq]

/-! ### KEY_START and KEY_UNIT (40 R92, R93) -/

/-- Settles O27: opcode 1 reads no operand, and the seeded offset bases are the words named. -/
theorem keyStartBeginsAKey : Obligations.KeyStartBeginsAKey :=
  ⟨isPlainCommand_of_commandOf rfl (fun _ => rfl) rfl, fun _ => rfl⟩

/-- Opcode 2 takes its unit from the low 16 bits (30 R71). -/
theorem keyUnit_isOperandCommand : isOperandCommand 2 16 (fun x => .keyUnit (BitVec.ofNat 16 x)) := by
  have hc (v : Word) : commandOf 2 v = some (.keyUnit (BitVec.ofNat 16 (v.toNat % 2 ^ 16))) :=
    commandOf_eq_getElem? (by decide)
  refine ⟨fun x hx => ?_, hostWrite_of_opcode (i := fun x => .keyUnit (BitVec.ofNat 16 x)) (by decide) hc rfl⟩
  have hu : (BitVec.ofNat 16 x).toNat = x := (BitVec.toNat_ofNat x 16).trans (Nat.mod_eq_of_lt hx)
  rw [encode_eq_ofNat rfl, Instr.operand, hu, Instr.opcode]

/-- Settles O28: adding one to KEY_LEN is counting mod 2^32. -/
theorem keyUnitFoldsBothLanes : Obligations.KeyUnitFoldsBothLanes := by
  refine ⟨keyUnit_isOperandCommand, fun u s => ?_⟩
  rw [BitVec.ofNat_add, BitVec.ofNat_toNat, BitVec.setWidth_eq]
  rfl

/-! ### The FNV-1a multiply and the fold (40 R85 to R87) -/

/-- FNV_PRIME has the bits 24, 8, 7, 4, 1 and 0, so the product is the sum of the shifts (40 R85). -/
theorem fnvMul_eq_shiftAdd (a : Word) : fnvMul a = fnvMulShiftAdd a := by
  have shift (n : Nat) : a <<< n = a * BitVec.twoPow 32 n := (BitVec.mul_twoPow_eq_shiftLeft a n).symm
  calc a * fnvPrime
    _ = a * (1#32 + BitVec.twoPow 32 1 + BitVec.twoPow 32 4 + BitVec.twoPow 32 7 + BitVec.twoPow 32 8 +
          BitVec.twoPow 32 24) := congrArg (a * ·) (by decide)
    _ = fnvMulShiftAdd a := by simp only [fnvMulShiftAdd, shift, BitVec.mul_add, BitVec.mul_one]

/-- Settles O29: the product mod 2^32 as a number, and as a sum of shifts. -/
theorem fnvMultiplyForms : Obligations.FnvMultiplyForms :=
  fun a => ⟨BitVec.toNat_mul a fnvPrime, fnvMul_eq_shiftAdd a⟩

/-- The high byte as a number (30 R73). -/
theorem unitHigh_toNat (c : CodeUnit) : (unitHigh c).toNat = c.toNat / 256 := by
  have := c.isLt
  rw [unitHigh, BitVec.extractLsb'_toNat, Nat.shiftRight_eq_div_pow]
  omega

/-- The low byte as a number (30 R73). -/
theorem unitLow_toNat (c : CodeUnit) : (unitLow c).toNat = c.toNat % 256 := by
  rw [unitLow, BitVec.extractLsb'_toNat, Nat.shiftRight_zero]

/-- The fold of a byte in numbers (40 R86). -/
theorem foldByte_eq (a : Word) (b : Byte) : foldByte a b = (a ^^^ BitVec.ofNat 32 b.toNat) * 16777619#32 := by
  rw [BitVec.ofNat_toNat]
  rfl

/-- Settles O30: the two bytes as numbers, high byte first. -/
theorem codeUnitFold : Obligations.CodeUnitFold := by
  intro a c
  have hhigh : unitHigh c ≠ 0#8 ↔ c.toNat / 256 ≠ 0 := by
    rw [← unitHigh_toNat, ne_eq, ← BitVec.toNat_inj]
    rfl
  rw [foldUnit, foldLowByte, foldHighByte, foldByte_eq, foldByte_eq, unitLow_toNat, unitHigh_toNat]
  simp only [hhigh]

@[simp] theorem unitHigh_append (h l : Byte) : unitHigh (h ++ l) = h := BitVec.extractLsb'_append_eq_left

@[simp] theorem unitLow_append (h l : Byte) : unitLow (h ++ l) = l := BitVec.extractLsb'_append_eq_right

/-- A unit with high byte 0 folds its low byte alone, under both orders (40 R87, R95). -/
theorem foldUnit_zero_append (o : Config.UnitOrder) (a : Word) (l : Byte) : foldUnit o a (0#8 ++ l) = foldByte a l := by
  cases o <;> simp [foldUnit, foldHighByte, foldLowByte]

/-- A unit below 0x0100 is the byte 0 and its low byte. -/
theorem setWidth_eq_zero_append (l : Byte) : l.setWidth 16 = 0#8 ++ l := BitVec.setWidth_eq_append (by decide)

/-- Settles O33: both sides fold the byte h and then the byte l. -/
theorem unitAliasing : Obligations.UnitAliasing := by
  intro a h l
  simp only [setWidth_eq_zero_append, foldUnit_zero_append, implies_true, and_true]
  intro hh
  simp [foldUnit, foldHighByte, foldLowByte, hh]

/-! ### The mix (40 R88) -/

/-- Settles O31: each step of the reference plan is the named combination with the named shift. -/
theorem referenceMix : Obligations.ReferenceMix := by
  rintro a a1 a2 a3 a4 rfl rfl rfl rfl
  rfl

end Sys2Proof.Machine

namespace Sys2Proof.Machine

/-! ### The source's loop (41 R97, R98) -/

/-- The next location is the last one advanced by b (41 R97). -/
theorem location_succ_cast (a b : Word) {m : Nat} (hm : 0 < m) (i : Nat) :
    (location a b m (i + 1) : Int) = (location a b m i + b.toInt) % m := by
  rw [location_cast a b hm, location_cast a b hm, Int.emod_add_emod, Int.natCast_succ, Int.add_mul, Int.one_mul,
    Int.add_assoc]

/-- Normalization keeps the residue. -/
theorem normalizeRem_emod (m x : Int) : normalizeRem m x % m = x % m := by
  unfold normalizeRem
  split
  · exact Int.add_emod_right x m
  · rfl

/-- The loop that advances the raw remainder emits the closed form. -/
theorem sourceLocation_eq_location (a b : Word) {m : Nat} (hm : 0 < m) (i : Nat) :
    sourceLocation a b m i = location a b m i := by
  induction i with
  | zero => rw [location_cast a b hm, Int.natCast_zero, Int.zero_mul, Int.add_zero]; exact normalizeRem_tmod hm _
  | succ i ih =>
    calc sourceLocation a b m (i + 1)
      _ = (sourceRem a b m i + b.toInt) % m := normalizeRem_tmod hm _
      _ = (sourceLocation a b m i + b.toInt) % m := Int.emod_add_cancel_right _ |>.mpr (normalizeRem_emod _ _).symm
      _ = location a b m (i + 1) := by rw [ih, location_succ_cast a b hm]

/-- The loop that advances the normalized remainder emits the closed form too (90 C5). -/
theorem sourceRemNormalized_eq_location (a b : Word) {m : Nat} (hm : 0 < m) (i : Nat) :
    sourceRemNormalized a b m i = location a b m i := by
  induction i with
  | zero => exact sourceLocation_eq_location a b hm 0
  | succ i ih => rw [sourceRemNormalized, ih, normalizeRem_tmod hm, location_succ_cast a b hm]

/-- The raw remainder is less than m in size (41 R97). -/
theorem sourceRem_bounds (a b : Word) {m : Nat} (hm : 0 < m) (i : Nat) :
    -(m : Int) < sourceRem a b m i ∧ sourceRem a b m i < m := by
  have bounds (y : Int) : -(m : Int) < y.tmod m ∧ y.tmod m < m :=
    ⟨Int.lt_tmod_of_pos y (Int.natCast_pos.mpr hm), Int.tmod_lt_of_pos y (Int.natCast_pos.mpr hm)⟩
  cases i <;> exact bounds _

/-- Settles O34: normalization keeps the residue, so both loops emit one value, and |x| < m and |b| <= 2^31 bound the sums. -/
theorem sourceLoopEmitsClosedForm : Obligations.SourceLoopEmitsClosedForm := by
  intro a b m i hm
  refine ⟨sourceLocation_eq_location a b hm i, sourceRemNormalized_eq_location a b hm i, location_cast a b hm i,
    location_lt a b hm i, fun hle => ?_⟩
  have hx := sourceRem_bounds a b hm i
  have hb : -2 ^ 31 ≤ b.toInt ∧ b.toInt < 2 ^ 31 := ⟨b.le_toInt, b.toInt_lt⟩
  omega

/-! ### The lanes' recurrence (41 R99) -/

/-- The independent form of one lane, on the remainders of a and b (41 R99). -/
theorem location_eq_mod (a b : Word) {m : Nat} (hm : 0 < m) (i : Nat) :
    location a b m i = ((a.toInt % m).toNat + i * (b.toInt % m).toNat) % m := by
  have cast_rem (y : Int) : ((y % m).toNat : Int) = y % m := Int.toNat_of_nonneg (Int.emod_nonneg y (by omega))
  rw [← Int.natCast_inj, location_cast a b hm]
  push_cast
  rw [cast_rem, cast_rem]
  exact ((Int.mod_modEq a.toInt m).add ((Int.mod_modEq b.toInt m).mul_left i)).symm

/-- The unsigned recurrence gives the closed form: below 2m, one subtraction of m takes the remainder. -/
theorem laneLocation_eq_location (a b : Word) {m : Nat} (hm : 0 < m) (i : Nat) :
    laneLocation a b m i = location a b m i := by
  induction i with
  | zero => simp [laneLocation, location]
  | succ i ih =>
    have hbp : (b.toInt % m).toNat < m := (Int.toNat_lt_of_ne_zero hm.ne').mpr (Int.emod_lt_of_pos _ (by omega))
    have hsucc : location a b m (i + 1) = (location a b m i + (b.toInt % m).toNat) % m := by
      rw [location_eq_mod a b hm, location_eq_mod a b hm, Nat.mod_add_mod, Nat.succ_mul, Nat.add_assoc]
    rw [hsucc, Nat.add_mod_eq_ite, Nat.mod_eq_of_lt (location_lt a b hm i), Nat.mod_eq_of_lt hbp, laneLocation, ih]

/-- Settles O35, from the remainders of a and b. -/
theorem laneRecurrenceGivesClosedForm : Obligations.LaneRecurrenceGivesClosedForm := by
  intro a b m i hm
  rw [Nat.add_mod_mod]
  exact ⟨laneLocation_eq_location a b hm i, location_eq_mod a b hm i⟩

/-! ### Signedness and coinciding locations (41 R100, R103) -/

/-- The signed and the unsigned reading of a word agree modulo every divisor of 2^32 (41 R100). -/
theorem toInt_modEq_toNat {m : Nat} (hd : m ∣ 2 ^ 32) (v : Word) : v.toInt ≡ v.toNat [ZMOD m] := by
  rw [BitVec.toInt_eq_toNat_bmod]
  exact Int.ModEq.of_dvd (Int.natCast_dvd_natCast.mpr hd) Int.bmod_emod

/-- Settles O36: the two readings differ by a multiple of 2^32, which 96 does not divide. -/
theorem signednessOfHashes : Obligations.SignednessOfHashes := by
  refine ⟨fun a b m i hm hd => ?_, by decide, by decide⟩
  rw [← Int.natCast_inj, location_cast a b hm]
  exact (toInt_modEq_toNat hd a).add ((toInt_modEq_toNat hd b).mul_left i)

/-- Settles O37: the difference of the two sums is (i - j) * b. -/
theorem coincidingLocations : Obligations.CoincidingLocations := by
  intro a b m i j hm
  rw [← Int.natCast_inj, location_cast a b hm, location_cast a b hm, Int.emod_eq_emod_iff_emod_sub_eq_zero,
    add_sub_add_left_eq_sub, Int.sub_mul]

/-! ### The finalization step and HASH (41 R101, R102) -/

/-- Lane i of a finalized key in a configured mode: its location while it is in use, else 0 (41 R101). -/
theorem finalize_loc_getD {s : State} (hi : BlockInv s) (h : s.mode ≠ .off) {i : Nat} (hlt : i < s.params.kMax) :
    (s.finalize.loc.getD i 0 : Int) =
      if i < s.k.toNat then (s.finalize.hashA.toInt + i * s.finalize.hashB.toInt) % (s.m.toNat : Int) else 0 := by
  obtain ⟨-, hm, -⟩ := (geometryOk_iff s).mp (geometry_of_ne_off hi h)
  rw [State.finalize_loc, if_pos (configured_of_ne_off h), List.getD_eq_getElem?_getD,
    laneLocations_getElem? _ _ _ _ _ hlt, Option.getD_some]
  split
  · exact location_cast _ _ (by omega) i
  · rfl

/-- In OFF finalization leaves the lanes' locations (41 R101). -/
theorem finalize_loc_of_off {s : State} (h : s.mode = .off) : s.finalize.loc = s.loc := by
  rw [State.finalize_loc, h]
  rfl

/-- LOCV after a finalization is 1 exactly in a configured mode (41 R101). -/
theorem finalize_locv_iff (s : State) : s.finalize.locv = true ↔ s.mode ≠ .off := by
  rw [State.finalize_locv]
  cases s.mode <;> decide

/-- Once its check passes, a command that finalizes does so, and writes nothing else but the array or HIT (41 R101). -/
theorem exec_finalizes {s : State} {c : Instr} (hi : BlockInv s) (hc : c ∈ [Instr.hash, Instr.add, Instr.test])
    (hmode : c = .hash ∨ s.mode = .ready) :
    ∃ b h, exec c s = .next { s.finalize with buckets := b, hit := h } := by
  simp only [List.mem_cons, List.not_mem_nil, or_false] at hc
  obtain rfl | rfl | rfl := hc
  · exact ⟨_, _, exec_hash hi⟩
  · exact ⟨_, _, exec_add hi (hmode.resolve_left nofun)⟩
  · exact ⟨_, _, exec_test hi (hmode.resolve_left nofun)⟩

/-- Settles O38: the three commands share the finalization step. -/
theorem finalizationStep : Obligations.FinalizationStep := by
  intro s c hi hc hmode
  obtain ⟨b, h, hex⟩ := exec_finalizes hi hc hmode
  refine ⟨_, hex, rfl, rfl, rfl, rfl, rfl, fun hon => ?_, fun hoff => ?_⟩
  · exact ⟨(finalize_locv_iff s).mpr hon, hi.finalize.loc_lanes, fun i hlt => finalize_loc_getD hi hon hlt⟩
  · exact ⟨by rw [State.finalize_locv, hoff]; rfl, finalize_loc_of_off hoff⟩

/-- Settles O39: opcode 3 reads no operand, and finalizing twice is finalizing once. -/
theorem hashCompletesInEveryMode : Obligations.HashCompletesInEveryMode := by
  refine ⟨isPlainCommand_of_commandOf rfl (fun _ => rfl) rfl, fun s hi => ⟨s.finalize, exec_hash hi, ?_, rfl, rfl, ?_⟩⟩
  · rw [exec_hash hi.finalize, finalize_finalize]
  · exact ⟨finalize_locv_iff s, finalize_loc_of_off, fun hon i hlt => finalize_loc_getD hi hon hlt, rfl⟩

end Sys2Proof.Machine

namespace Sys2Proof.Machine

/-! ### The bits of the array (42 R105 to R107) -/

/-- Bit j of word w is the array's bit 32 w + j (42 R104). -/
theorem getLsbD_read (b : Memory) (w : Nat) {j : Nat} (hj : j < 32) : (b.read w).getLsbD j = b.testBit (32 * w + j) := by
  rw [testBit_eq, show (32 * w + j) / 32 = w by omega, show (32 * w + j) % 32 = j by omega]

/-- Settles O41: bit j of word w is bit 32 w + j of the array, and setBit sets bit i alone. -/
theorem setBitAndTestBit : Obligations.SetBitAndTestBit := by
  refine fun b i hb => ⟨fun w j hj => ?_, testBit_eq b i⟩
  have hi : i = 32 * w + j ↔ w = i / 32 ∧ j = i % 32 := by omega
  rw [getLsbD_read _ w hj, getLsbD_read _ w hj, testBit_setBit hb, decide_eq_decide.mpr hi]

/-- A word after the parallel set is the word before OR-ed with its merged mask (42 R107). -/
theorem read_parallelSet {b : Memory} (hb : Memory.wf b) (ls : List Nat) (w : Nat) :
    (parallelSet b ls).read w = b.read w ||| orMasks ls w := by
  apply BitVec.eq_of_getLsbD_eq
  intro j hj
  rw [BitVec.getLsbD_or, orMasks_getLsbD ls w hj, getLsbD_read _ w hj, getLsbD_read _ w hj, testBit_parallelSet hb,
    Bool.or_comm]

/-- The parallel set depends only on which locations it gets, not on their order (42 R107). -/
theorem parallelSet_perm {b : Memory} (hb : Memory.wf b) {ls ks : List Nat} (h : ls.Perm ks) :
    parallelSet b ls = parallelSet b ks := by
  refine eq_of_testBit_eq (parallelSet_wf hb ls) (parallelSet_wf hb ks) fun j => ?_
  rw [testBit_parallelSet hb, testBit_parallelSet hb, decide_eq_decide.mpr h.mem_iff]

/-- Settles O42, bit by bit: a bit is set afterwards when it was set or is a location. -/
theorem parallelSetMergesMasks : Obligations.ParallelSetMergesMasks :=
  fun b ls hb => ⟨read_parallelSet hb ls, fun _ => parallelSet_perm hb, parallelSet_nil b⟩

/-! ### POPCOUNT (42 R110, R111) -/

theorem exec_popcount {s : State} (hi : BlockInv s) (h : s.mode ≠ .off) :
    exec .popcount s = .next { s with pop := BitVec.ofNat 32 (setBits s.buckets s.nw) } :=
  (if_neg h).trans (onFilter_ok (geometry_of_ne_off hi h) _)

/-- m is at most 32 * W_MAX, which is at most 2^31 (00 R7, 10 R22). -/
theorem BlockInv.m_le {s : State} (hi : BlockInv s) (h : s.mode ≠ .off) : s.m.toNat ≤ 2 ^ 31 := by
  obtain ⟨-, -, hm, -⟩ := (geometryOk_iff s).mp (geometry_of_ne_off hi h)
  obtain ⟨-, -, -, hw⟩ := (params_valid_iff s.params).mp hi.params_valid
  omega

/-- The count of the visible words needs no reduction to fit the POPCOUNT register (42 R110). -/
theorem setBits_toNat (s : State) :
    (BitVec.ofNat 32 (setBits s.buckets s.nw)).toNat = setBits s.buckets s.nw := by
  have hle : setBits s.buckets s.nw ≤ 32 * (s.m.toNat / 32) := setBits_le s.buckets s.nw
  have hm := s.m.isLt
  rw [BitVec.toNat_ofNat, Nat.mod_eq_of_lt (by omega)]

/-- Settles O43: opcode 6 reads no operand, and the count is the sum over the words of the sum over their bits. -/
theorem popcountLatchesSetBits : Obligations.PopcountLatchesSetBits := by
  refine ⟨isPlainCommand_of_commandOf rfl (fun _ => rfl) rfl, fun s hi => ⟨fun hon => ?_, fun hoff => if_pos hoff⟩⟩
  refine ⟨_, exec_popcount hi hon, ?_, hi.popcount.pop_le, hi.m_le hon⟩
  rw [setBits_toNat, setBits, State.nw]
  simp only [popcountWord_eq_sum]

end Sys2Proof.Machine

namespace Sys2Proof.Machine

/-! ### One filter along a run (43 R115) -/

/-- t still has the filter of s: READY, with its parameters and its size; the bits may differ. -/
structure SameFilter (s t : State) : Prop where
  inv : BlockInv t
  ready : t.mode = .ready
  params : t.params = s.params
  m : t.m = s.m
  k : t.k = s.k

namespace SameFilter

variable {s t r : State}

theorem refl (hi : BlockInv s) (hm : s.mode = .ready) : SameFilter s s := ⟨hi, hm, rfl, rfl, rfl⟩

theorem trans (h : SameFilter s t) (h' : SameFilter t r) : SameFilter s r :=
  ⟨h'.inv, h'.ready, h'.params.trans h.params, h'.m.trans h.m, h'.k.trans h.k⟩

theorem facing (h : SameFilter s t) (es : List HostEvent) : SameFilter s (t.facing es) := { h with inv := h.inv.facing es }

theorem ne_off (h : SameFilter s t) : t.mode ≠ .off := by
  rw [h.ready]
  nofun

/-- A move with no CONFIG command and no reset leaves the filter in being. -/
theorem after_move {e : HostEvent} (hi : BlockInv s) (hm : s.mode = .ready) (hk : keepsFilter e = true)
    (h : perform e s = .next t) : SameFilter s t := by
  obtain ⟨hready, hsize, hcount, -⟩ := readyFilterIsSetOnly e s t hi hm hk h
  exact ⟨(perform_move h).keeps_inv hi, hready, perform_params h, hsize, hcount⟩

end SameFilter

/-- A run with no CONFIG command and no reset leaves the filter in being and every set bit set (10 R45 item 3). -/
theorem runAll_set_only {s t : State} {es : List HostEvent} (hi : BlockInv s) (hm : s.mode = .ready)
    (hes : ∀ e ∈ es, keepsFilter e = true) (h : runAll s es = .next t) :
    SameFilter s t ∧ ∀ j, s.buckets.testBit j = true → t.buckets.testBit j = true := by
  induction es generalizing s with
  | nil =>
    rw [runAll_nil] at h
    cases h
    exact ⟨(SameFilter.refl hi hm).facing [], fun _ => id⟩
  | cons e es ih =>
    obtain ⟨r, hr, hrun⟩ := runAll_cons_next h
    obtain ⟨hk, hes⟩ := List.forall_mem_cons.mp hes
    obtain ⟨-, -, -, hbits⟩ := readyFilterIsSetOnly e s r hi hm hk hr
    have hsame := SameFilter.after_move hi hm hk hr
    obtain ⟨hsame', hbits'⟩ := ih hsame.inv hsame.ready hes hrun
    exact ⟨hsame.trans hsame', fun j hj => hbits' j (hbits j hj)⟩

/-! ### The locations of a key (43 R112) -/

/-- The k locations of the key u in the filter of s. -/
def State.keyLocations (s : State) (u : List CodeUnit) : List Nat :=
  (List.range s.k.toNat).map (location (hashOf s.params seedA u) (hashOf s.params seedB u) s.m.toNat)

theorem mem_keyLocations {s : State} {u : List CodeUnit} {j : Nat} : j ∈ s.keyLocations u ↔
    ∃ i < s.k.toNat, location (hashOf s.params seedA u) (hashOf s.params seedB u) s.m.toNat i = j := by
  simp [State.keyLocations]

/-- A key has the same locations as long as the filter is the same. -/
theorem SameFilter.keyLocations {s t : State} (h : SameFilter s t) : t.keyLocations = s.keyLocations := by
  unfold State.keyLocations
  rw [h.params, h.m, h.k]

/-- The lanes in use probe the locations of the current key (41 R101). -/
theorem probes_of_currentKey {s : State} {u : List CodeUnit} (hi : BlockInv s) (h : s.mode ≠ .off)
    (hu : s.currentKey u) : s.finalize.probes = s.keyLocations u := by
  obtain ⟨-, -, -, hk⟩ := (geometryOk_iff s).mp (geometry_of_ne_off hi h)
  obtain ⟨hA, hB⟩ := hu
  rw [finalize_probes (configured_of_ne_off h) hk, hA, hB]
  rfl

/-- ADD of the key u sets the bits of u's locations, in the same filter (43 R112). -/
theorem exec_add_key {s : State} {u : List CodeUnit} (hi : BlockInv s) (hm : s.mode = .ready) (hu : s.currentKey u) :
    ∃ t, exec .add s = .next t ∧ SameFilter s t ∧ t.buckets = parallelSet s.buckets (s.keyLocations u) := by
  have hon := (SameFilter.refl hi hm).ne_off
  exact ⟨_, exec_add hi hm, ⟨hi.addProbes hon, hm, rfl, rfl, rfl⟩, by rw [probes_of_currentKey hi hon hu]⟩

/-- TEST of the key u reads the bits of u's locations (43 R113). -/
theorem exec_test_key {s : State} {u : List CodeUnit} (hi : BlockInv s) (hm : s.mode = .ready) (hu : s.currentKey u) :
    ∃ t, exec .test s = .next t ∧ t.hit = parallelTest s.buckets (s.keyLocations u) :=
  ⟨_, exec_test hi hm, by rw [probes_of_currentKey hi (SameFilter.refl hi hm).ne_off hu]⟩

/-- Settles O46: ADD sets the bits of u's locations, the moves between keep the filter and its set bits, and so TEST probes
the same locations and finds every bit set. -/
theorem noFalseNegatives : Obligations.NoFalseNegatives := by
  intro s t r u es hi hm hu hadd hes hrun hur
  obtain ⟨t', ht', hst, hset⟩ := exec_add_key hi hm hu
  obtain rfl : t' = t := Host.Outcome.next.inj (ht'.symm.trans hadd)
  obtain ⟨htr, hkept⟩ := runAll_set_only hst.inv hst.ready hes hrun
  obtain ⟨q, hq, hhit⟩ := exec_test_key htr.inv htr.ready hur
  refine ⟨q, hq, ?_⟩
  rw [hhit, (hst.trans htr).keyLocations, parallelTest, List.all_eq_true]
  intro l hl
  apply hkept
  rw [hset, testBit_parallelSet hi.buckets_wf, decide_eq_true hl, Bool.true_or]

/-! ### Runs of the host program's lines (30 R80 to R82) -/

/-- A command statement performs its command (30 R81). -/
theorem perform_cmd {i : Instr} (h : i.wf = true) (s : State) : perform (cmd i) s = exec i s :=
  perform_of_isCommand ⟨_, rfl, decodeInvertsEncode i h⟩ s

theorem runAll_cmd {i : Instr} {s t : State} (h : i.wf = true) (hex : exec i s = .next t) :
    runAll s [cmd i] = .next (t.facing []) := by
  rw [runAll_cons [] ((perform_cmd h s).trans hex), runAll_nil]

/-- KEY_UNIT commands fold their units into the lanes and count them, and change nothing else of the block (40 R93). -/
theorem runAll_keyUnits (u : List CodeUnit) (s : State) : runAll s (u.map fun c => cmd (.keyUnit c)) = .next { s with
    laneA := u.foldl (foldUnit s.params.unitOrder) s.laneA
    laneB := u.foldl (foldUnit s.params.unitOrder) s.laneB
    keyLen := s.keyLen + BitVec.ofNat 32 u.length
    inbox := [] } := by
  induction u generalizing s with
  | nil =>
    rw [List.map_nil, runAll_nil, List.length_nil, BitVec.add_zero]
    rfl
  | cons c u ih =>
    have hlen : s.keyLen + BitVec.ofNat 32 (c :: u).length = s.keyLen + 1#32 + BitVec.ofNat 32 u.length := by
      rw [List.length_cons, Nat.add_comm, BitVec.ofNat_add, BitVec.add_assoc]
    rw [List.map_cons, runAll_cons _ ((perform_cmd rfl s).trans rfl), ih, hlen]
    rfl

/-- `KEY u` makes u the current key of the same filter and leaves the array alone (40 R94). -/
theorem runAll_keyEvents {s : State} (hi : BlockInv s) (hm : s.mode = .ready) (u : List CodeUnit) :
    ∃ t, runAll s (keyEvents u) = .next t ∧ SameFilter s t ∧ t.buckets = s.buckets ∧ t.currentKey u := by
  rw [keyEvents, runAll_cons _ ((perform_cmd rfl s).trans rfl), runAll_keyUnits]
  exact ⟨_, rfl, ⟨{ hi with }, hm, rfl, rfl, rfl⟩, rfl, rfl, rfl⟩

/-- `ADDKEY u` sets the bits of u's locations, in the same filter (30 R82, 43 R112). -/
theorem runAll_addKey {s : State} (hi : BlockInv s) (hm : s.mode = .ready) (u : List CodeUnit) :
    ∃ t, runAll s (Stmt.addKey u).expand = .next t ∧ SameFilter s t ∧
      t.buckets = parallelSet s.buckets (s.keyLocations u) := by
  obtain ⟨r, hr, hsr, hbuckets, hu⟩ := runAll_keyEvents hi hm u
  obtain ⟨t, ht, hrt, hset⟩ := exec_add_key hsr.inv hsr.ready hu
  refine ⟨t.facing [], ?_, (hsr.trans hrt).facing [], ?_⟩
  · exact (runAll_append _ hr).trans (runAll_cmd rfl ht)
  · rw [State.facing_buckets, hset, hbuckets, hsr.keyLocations]

/-- Adding the keys of a list sets the bits of all their locations, in the same filter (43 R116). -/
theorem runAll_addKeys {s : State} (hi : BlockInv s) (hm : s.mode = .ready) (us : List (List CodeUnit)) :
    ∃ t, runAll s (assemble (us.map Stmt.addKey)) = .next t ∧ SameFilter s t ∧
      t.buckets = parallelSet s.buckets (us.flatMap s.keyLocations) := by
  induction us generalizing s with
  | nil => exact ⟨_, runAll_nil s, (SameFilter.refl hi hm).facing [], rfl⟩
  | cons u us ih =>
    obtain ⟨r, hr, hsr, hfirst⟩ := runAll_addKey hi hm u
    obtain ⟨t, ht, hrt, hrest⟩ := ih hsr.inv hsr.ready
    refine ⟨t, (runAll_append _ hr).trans ht, hsr.trans hrt, ?_⟩
    rw [hrest, hfirst, hsr.keyLocations, List.flatMap_cons]
    exact List.foldl_append.symm

/-- Entering and testing the key u gives the bits of u's locations (43 R113). -/
theorem runAll_testKey {s : State} (hi : BlockInv s) (hm : s.mode = .ready) (u : List CodeUnit) :
    ∃ t, runAll s (keyEvents u ++ [cmd .test]) = .next t ∧ t.hit = parallelTest s.buckets (s.keyLocations u) := by
  obtain ⟨r, hr, hsr, hbuckets, hu⟩ := runAll_keyEvents hi hm u
  obtain ⟨t, ht, hhit⟩ := exec_test_key hsr.inv hsr.ready hu
  refine ⟨t.facing [], (runAll_append _ hr).trans (runAll_cmd rfl ht), ?_⟩
  rw [State.facing_hit, hhit, hbuckets, hsr.keyLocations]

/-- Settles O47: either run sets, in parallel, the locations of all its keys, and these are the same up to their order. -/
theorem addOrderDoesNotMatter : Obligations.AddOrderDoesNotMatter := by
  intro s us vs hi hm hperm
  obtain ⟨t, ht, hst, htb⟩ := runAll_addKeys hi hm us
  obtain ⟨r, hr, hsr, hrb⟩ := runAll_addKeys hi hm vs
  have hsame : t.buckets = r.buckets := by
    rw [htb, hrb, parallelSet_perm hi.buckets_wf (hperm.flatMap_right s.keyLocations)]
  refine ⟨t, r, ht, hr, hsame, fun j => ?_, fun u => ?_⟩
  · rw [htb, testBit_parallelSet hi.buckets_wf, Bool.or_eq_true, decide_eq_true_eq, or_comm, List.mem_flatMap]
    simp only [mem_keyLocations]
  · obtain ⟨a, ha, hahit⟩ := runAll_testKey hst.inv hst.ready u
    obtain ⟨b, hb, hbhit⟩ := runAll_testKey hsr.inv hsr.ready u
    exact ⟨a, b, ha, hb, by rw [hahit, hbhit, hsame, hst.keyLocations, hsr.keyLocations]⟩

/-! ### ADD and TEST (43 R112, R113) -/

/-- Bit j of word w is probed exactly when one of the k remainders of 41 R98 names it. -/
theorem mem_probes_word {s : State} (hi : BlockInv s) (h : s.mode ≠ .off) (w j : Nat) :
    32 * w + j ∈ s.finalize.probes ↔ ∃ i < s.k.toNat,
      ((mix s.params.mixPlan s.laneA).toInt + i * (mix s.params.mixPlan s.laneB).toInt) % (s.m.toNat : Int) =
        32 * w + j := by
  obtain ⟨-, hm, -⟩ := (geometryOk_iff s).mp (geometry_of_ne_off hi h)
  simp only [mem_probes hi h, ← location_cast _ _ (show 0 < s.m.toNat by omega)]
  norm_cast

/-- Settles O44: opcode 4 reads no operand, and the parallel set sets exactly the probed bits. -/
theorem addInsertsTheCurrentKey : Obligations.AddInsertsTheCurrentKey := by
  refine ⟨isPlainCommand_of_commandOf rfl (fun _ => rfl) rfl, fun s hi => ⟨fun hm => ?_, fun hm => if_pos hm⟩⟩
  have hon := (SameFilter.refl hi hm).ne_off
  refine ⟨_, exec_add hi hm, fun w j hj => ?_, rfl, rfl, rfl, (finalize_locv_iff s).mpr hon, rfl⟩
  rw [getLsbD_read _ w hj, getLsbD_read _ w hj, testBit_parallelSet hi.buckets_wf, Bool.or_eq_true, decide_eq_true_eq,
    mem_probes_word hi hon, or_comm]

/-- The parallel test holds exactly when bit j of word w is set for every tested location 32 w + j (42 R108). -/
theorem parallelTest_iff (b : Memory) (ls : List Nat) :
    parallelTest b ls = true ↔ ∀ w j, j < 32 → 32 * w + j ∈ ls → (b.read w).getLsbD j = true := by
  rw [parallelTest, List.all_eq_true]
  constructor
  · intro h w j hj hl
    rw [getLsbD_read b w hj]
    exact h _ hl
  · intro h l hl
    rw [testBit_eq]
    exact h _ _ (Nat.mod_lt l (by decide)) (by rwa [Nat.div_add_mod])

/-- Settles O45: opcode 5 reads no operand, and the parallel test asks for exactly the probed bits, none of them for k = 0. -/
theorem testProbesTheCurrentKey : Obligations.TestProbesTheCurrentKey := by
  refine ⟨isPlainCommand_of_commandOf rfl (fun _ => rfl) rfl, fun s hi => ⟨fun hm => ?_, fun hm => if_pos hm⟩⟩
  have hon := (SameFilter.refl hi hm).ne_off
  refine ⟨_, exec_test hi hm, ?_, fun hk => ?_, rfl, rfl, rfl, (finalize_locv_iff s).mpr hon, rfl⟩
  · rw [parallelTest_iff]
    simp only [mem_probes_word hi hon]
    exact ⟨fun h i hik w j hj hl => h w j hj ⟨i, hik, hl⟩, fun h w j hj ⟨i, hik, hl⟩ => h i hik w j hj hl⟩
  · have hnone : s.finalize.probes = [] := by
      rw [State.probes, State.finalize_k, hk]
      rfl
    rw [hnone]
    rfl

/-! ### Repeated ADD, and the population count across ADD (43 R117, R118) -/

/-- Setting the same locations again changes nothing (42 R107). -/
theorem parallelSet_parallelSet {b : Memory} (hb : Memory.wf b) (ls : List Nat) :
    parallelSet (parallelSet b ls) ls = parallelSet b ls := by
  have hset := parallelSet_wf hb ls
  refine eq_of_testBit_eq (parallelSet_wf hset ls) hset fun j => ?_
  rw [testBit_parallelSet hset, testBit_parallelSet hb, ← Bool.or_assoc, Bool.or_self]

/-- Finalizing does not look at the array (41 R101). -/
theorem finalize_with_buckets (s : State) (b : Memory) :
    State.finalize { s with buckets := b } = { s.finalize with buckets := b } := rfl

/-- Settles O48: the second ADD finalizes to the same state and sets the same locations again. -/
theorem addIsIdempotent : Obligations.AddIsIdempotent := by
  intro s hi hm
  refine ⟨_, exec_add hi hm, ?_⟩
  rw [exec_add (hi.addProbes (SameFilter.refl hi hm).ne_off) hm, finalize_with_buckets, finalize_finalize]
  exact congrArg (fun b => Host.Outcome.next { s.finalize with buckets := b })
    (parallelSet_parallelSet hi.buckets_wf s.finalize.probes)

theorem popcountWord_mono {x y : Word} (h : ∀ j, x.getLsbD j = true → y.getLsbD j = true) :
    popcountWord x ≤ popcountWord y :=
  (List.monotone_filter_right (List.range 32) h).length_le

/-- An array with more bits set has no smaller population count (42 R110). -/
theorem setBits_mono {a b : Memory} (h : ∀ j, a.testBit j = true → b.testBit j = true) (n : Nat) :
    setBits a n ≤ setBits b n := by
  induction n with
  | zero => exact Nat.le_refl _
  | succ n ih =>
    rw [setBits_succ, setBits_succ]
    refine Nat.add_le_add ih (popcountWord_mono fun j hj => ?_)
    have hlt := BitVec.lt_of_getLsbD hj
    rw [getLsbD_read _ n hlt] at hj ⊢
    exact h _ hj

/-- Settles O49: ADD clears no bit and keeps m. -/
theorem addNeverLowersSetBits : Obligations.AddNeverLowersSetBits := by
  intro s t hi hm h
  obtain ⟨-, hsize, -, hbits⟩ := (exec_move h).ready_set_only hi hm nofun nofun
  rw [State.nw, State.nw, hsize]
  exact setBits_mono hbits _

end Sys2Proof.Machine

namespace Sys2Proof.Machine

/-! ### NOP, COMMIT and the CONFIG commands (44 R120 to R124) -/

/-- Settles O50: opcode 0 reads no operand, and NOP answers the state itself. -/
theorem nopDoesNothing : Obligations.NopDoesNothing :=
  ⟨isPlainCommand_of_commandOf rfl (fun _ => rfl) rfl, fun _ => rfl⟩

theorem exec_commit {s : State} (h : s.mode = .load) : exec .commit s = .next { s with mode := .ready } :=
  if_neg (not_not.mpr h)

/-- Settles O52: opcode 9 reads no operand, and COMMIT asks for LOAD. -/
theorem commitEndsReconstruction : Obligations.CommitEndsReconstruction :=
  ⟨isPlainCommand_of_commandOf rfl (fun _ => rfl) rfl, fun _ => ⟨exec_commit, fun h => if_pos h⟩⟩

theorem configure_accepted {s : State} {n : Nat} (h : s.configAccepts n = true) (md : OpMode) :
    s.configure n md = .next (s.configApply n md) := if_pos h

theorem configure_refused {s : State} {n : Nat} (h : ¬ s.configAccepts n = true) (md : OpMode) :
    s.configure n md = .next (s.raiseError .badConfig) := if_neg h

/-- A command with the word of format C and its count from that format's field is written as opcode and count (30 R72). -/
theorem isOperandCommand_of_kField {op : Nat} {i : Nat → Instr}
    (he : ∀ k ≤ 255, encode (i k) = BitVec.ofNat 32 (op * 2 ^ 28 + k))
    (hc : ∀ v, commandOf op v = some (i (kField v))) (hm : rsvdMask op = 0x0FFFFF00#32) : isOperandCommand op 8 i :=
  ⟨fun k hk => he k (Nat.le_of_lt_succ hk), hostWrite_of_opcode (by decide) (fun v => kField_eq v ▸ hc v) hm⟩

/-- Settles O51: both commands check CFG_CAP and K and then apply them, and differ only in the new mode. -/
theorem configBuildsAnEmptyFilter : Obligations.ConfigBuildsAnEmptyFilter := by
  refine ⟨isOperandCommand_of_kField (fun _ hk => encode_eq_ofNat (decide_eq_true hk)) (fun _ => rfl) rfl,
    isOperandCommand_of_kField (fun _ hk => encode_eq_ofNat (decide_eq_true hk)) (fun _ => rfl) rfl,
    fun s n c md hi hc => ?_⟩
  have hex : exec c s = s.configure n md := by
    simp only [List.mem_cons, List.not_mem_nil, or_false, Prod.mk.injEq] at hc
    obtain ⟨rfl, rfl⟩ | ⟨rfl, rfl⟩ := hc <;> rfl
  rw [hex]
  refine ⟨fun hcap hmax hn => ?_, fun hbad => configure_refused (fun ha => ?_) md⟩
  · have ha : s.configAccepts n = true := (configAccepts_iff n s).mpr ⟨by bv_omega, hmax, hn⟩
    obtain ⟨hm, h32, -, -, hlow, hhigh, hk, -⟩ := roundedCapacity_spec hi.params_valid ha
    refine ⟨_, configure_accepted ha md, rfl, ?_, ?_, ?_, hk, fun w => ?_, rfl, rfl, rfl, rfl, rfl⟩ <;>
      rw [State.configApply_m, hm]
    · exact h32
    · exact hlow
    · exact hhigh
    · exact Memory.read_clearBelow s.buckets _ w
  · obtain ⟨hcap, hmax, hn⟩ := (configAccepts_iff n s).mp ha
    rcases hbad with h | h | h
    · exact hcap h
    · omega
    · omega

/-! ### ARRAY_DATA accesses (44 R125, R126) -/

theorem perform_readArray {s : State} (hi : BlockInv s) (h : s.mode ≠ .off) (hx : s.aidx.toNat < s.nw) :
    perform (rd .arrayData) s =
      .next { s with outbox := s.outbox ++ [s.buckets.read s.aidx.toNat], aidx := s.aidx + 1#32 } :=
  (if_neg h).trans ((if_neg (Nat.not_le_of_lt hx)).trans (onFilter_ok (geometry_of_ne_off hi h) _))

theorem perform_writeArray {s : State} (hi : BlockInv s) (h : s.mode = .load) (hx : s.aidx.toNat < s.nw) (v : Word) :
    perform (wr .arrayData v) s =
      .next { s with buckets := s.buckets.write s.aidx.toNat v, aidx := s.aidx + 1#32 } := by
  have hoff : s.mode ≠ .off := by simp [h]
  have hready : s.mode ≠ .ready := by simp [h]
  exact (if_neg hoff).trans ((if_neg hready).trans ((if_neg (Nat.not_le_of_lt hx)).trans
    (onFilter_ok (geometry_of_ne_off hi hoff) _)))

/-- Settles O25: one check after the other. -/
theorem arrayDataRead : Obligations.ArrayDataRead :=
  fun _ hi => ⟨fun h => if_pos h, fun h hx => (if_neg h).trans (if_pos hx), perform_readArray hi⟩

/-- Settles O26: one check after the other, then the write of the word that ARRAY_IDX names. -/
theorem arrayDataWrite : Obligations.ArrayDataWrite := by
  intro v s hi
  refine ⟨fun h => if_pos h, fun h => (if_neg (by simp [h])).trans (if_pos h), fun h hx => ?_, fun h hx => ?_⟩
  · exact (if_neg (by simp [h])).trans ((if_neg (by simp [h])).trans (if_pos hx))
  · exact ⟨_, perform_writeArray hi h hx v, rfl, fun w => Memory.read_write hi.buckets_wf _ w v, rfl⟩

/-! ### The dump (44 R127) -/

/-- ARRAY_IDX goes up by 1 without wrapping below the number of visible words. -/
theorem aidx_succ_toNat {s : State} (h : s.aidx.toNat < s.nw) : (s.aidx + 1#32).toNat = s.aidx.toNat + 1 := by
  have hm := s.m.isLt
  rw [State.nw] at h
  rw [BitVec.toNat_add, BitVec.toNat_ofNat]
  omega

/-- ARRAY_IDX after one access and n more. -/
theorem add_one_add_ofNat (x : Word) (n : Nat) : x + 1#32 + BitVec.ofNat 32 n = x + BitVec.ofNat 32 (n + 1) := by
  rw [Nat.add_comm, BitVec.ofNat_add, BitVec.add_assoc]

/-- Reads of ARRAY_DATA within the filter return its words in order from ARRAY_IDX on. -/
theorem runAll_readArray {s : State} (hi : BlockInv s) (h : s.mode ≠ .off) {n : Nat} (hn : s.aidx.toNat + n ≤ s.nw) :
    runAll s (List.replicate n (rd .arrayData)) = .next { s with
      outbox := s.outbox ++ (List.range' s.aidx.toNat n).map s.buckets.read
      aidx := s.aidx + BitVec.ofNat 32 n
      inbox := [] } := by
  induction n generalizing s with
  | zero => simp [runAll_nil, State.facing]
  | succ n ih =>
    have hx : s.aidx.toNat < s.nw := by omega
    have hnext := aidx_succ_toNat hx
    have hrest := ih
      (s := { s with outbox := s.outbox ++ [s.buckets.read s.aidx.toNat], aidx := s.aidx + 1#32 }) { hi with } h
      (by rw [hnext]; change _ ≤ s.nw; omega)
    rw [List.replicate_succ, runAll_cons _ (perform_readArray hi h hx), hrest, add_one_add_ofNat, hnext,
      List.range'_succ, List.map_cons, List.append_assoc, List.singleton_append]

/-- `DUMP nw` returns the visible words and moves ARRAY_IDX past them. -/
theorem runAll_dump {s : State} (hi : BlockInv s) (h : s.mode ≠ .off) : runAll s (dumpEvents s.nw) =
    .next { s with outbox := s.outbox ++ s.visibleWords, aidx := BitVec.ofNat 32 s.nw, inbox := [] } := by
  have hrun := runAll_readArray (s := { s with aidx := 0#32 }) { hi with } h (Nat.zero_add s.nw).le
  rw [BitVec.zero_add, BitVec.toNat_zero, ← List.range_eq_range'] at hrun
  exact (runAll_cons _ rfl).trans hrun

/-- Settles O53, from the run of the dump. -/
theorem dumpReturnsVisibleWords : Obligations.DumpReturnsVisibleWords := by
  intro s hi h
  refine ⟨_, runAll_dump hi h, rfl, ?_, rfl⟩
  have hm := s.m.isLt
  rw [BitVec.toNat_ofNat, State.nw]
  omega

/-! ### The round trip (44 R128) -/

theorem runAll_keeps_inv {s t : State} {es : List HostEvent} (hi : BlockInv s) (h : runAll s es = .next t) : BlockInv t :=
  runAll_keeps (fun _ es hs => hs.facing es) (fun _ _ _ hr => (perform_move hr).keeps_inv) h hi

/-- Writes of ARRAY_DATA within the filter store their words in order from ARRAY_IDX on, and leave the words before. -/
theorem runAll_writeArray {s : State} (hi : BlockInv s) (h : s.mode = .load) {ws : List Word}
    (hn : s.aidx.toNat + ws.length ≤ s.nw) : ∃ b,
    runAll s (ws.map (wr .arrayData)) =
      .next { s with buckets := b, aidx := s.aidx + BitVec.ofNat 32 ws.length, inbox := [] } ∧
    (List.range' s.aidx.toNat ws.length).map b.read = ws ∧ ∀ w < s.aidx.toNat, b.read w = s.buckets.read w := by
  induction ws generalizing s with
  | nil => exact ⟨s.buckets, by simp [runAll_nil, State.facing], rfl, fun _ _ => rfl⟩
  | cons v ws ih =>
    rw [List.length_cons] at hn
    have hx : s.aidx.toNat < s.nw := by omega
    have hnext := aidx_succ_toNat hx
    obtain ⟨b, hrun, hwords, hbefore⟩ :=
      ih (hi.writeArray (geometry_of_ne_off hi (by simp [h])) hx v) h (by
        change (s.aidx + 1#32).toNat + ws.length ≤ s.nw
        omega)
    simp only [hnext] at hwords hbefore
    refine ⟨b, ?_, ?_, fun w hw => ?_⟩
    · rw [List.map_cons, runAll_cons _ (perform_writeArray hi h hx v), hrun, add_one_add_ofNat, List.length_cons]
    · rw [List.length_cons, List.range'_succ, List.map_cons, hwords, hbefore _ (Nat.lt_succ_self _),
        Memory.read_write_same hi.buckets_wf]
    · rw [hbefore w (by omega), Memory.read_write_other _ _ _ (by omega)]

/-- A capacity that is a multiple of 32 needs no rounding (44 R121). -/
theorem roundedCapacity_of_multiple {cap : Word} {n : Nat} (h : cap.toNat = 32 * n) : roundedCapacity cap = cap.toNat := by
  rw [roundedCapacity]
  omega

/-- With the size of n words in CFG_CAP, CONFIG_LOAD begins the loading of a filter of that size at word 0. -/
theorem exec_configLoad_words {s : State} (hi : BlockInv s) {k n : Nat} (hcap : s.cap.toNat = 32 * n) (hpos : 0 < n)
    (hmax : n ≤ s.params.wMax) (hk : k ≤ s.params.kMax) :
    ∃ t, exec (.configLoad k) s = .next t ∧ BlockInv t ∧ t.mode = .load ∧ t.params = s.params ∧ t.m = s.cap ∧
      t.k = BitVec.ofNat 8 k ∧ t.aidx = 0#32 ∧ t.errorRecord = s.errorRecord := by
  have ha : s.configAccepts k = true := (configAccepts_iff k s).mpr ⟨by bv_omega, by omega, hk⟩
  refine ⟨_, configure_accepted ha .load, hi.configApply ha rfl, rfl, rfl, ?_, rfl, rfl, rfl⟩
  rw [State.configApply_m, roundedCapacity_of_multiple hcap, BitVec.ofNat_toNat, BitVec.setWidth_eq]

/-- `LOADFILTER k, ws` builds the READY filter of k probes whose words are ws, in any block that has room for it. -/
theorem runAll_loadFilter {s : State} (hi : BlockInv s) {k : Nat} {ws : List Word} (hk : k ≤ s.params.kMax)
    (hpos : 0 < ws.length) (hmax : ws.length ≤ s.params.wMax) :
    ∃ t, runAll s (loadEvents k ws) = .next t ∧ BlockInv t ∧ t.mode = .ready ∧ t.params = s.params ∧
      t.m = BitVec.ofNat 32 (32 * ws.length) ∧ t.k = BitVec.ofNat 8 k ∧ t.errorRecord = s.errorRecord ∧
      t.visibleWords = ws := by
  obtain ⟨-, hkMax, -, hwMax⟩ := (params_valid_iff s.params).mp hi.params_valid
  have hcap : (BitVec.ofNat 32 (32 * ws.length)).toNat = 32 * ws.length := by
    rw [BitVec.toNat_ofNat]
    omega
  obtain ⟨r, hr, hir, hmode, hparams, hm, hcount, hidx, herr⟩ := exec_configLoad_words
    (s := { s with cap := BitVec.ofNat 32 (32 * ws.length) }) { hi with } hcap hpos hmax hk
  have hnw : r.nw = ws.length := by
    rw [State.nw, hm, hcap, Nat.mul_div_cancel_left _ (by decide)]
  have hidx0 : r.aidx.toNat = 0 := congrArg BitVec.toNat hidx
  obtain ⟨b, hrun, hwords, -⟩ := runAll_writeArray hir hmode (ws := ws) (by omega)
  have hwf : (Instr.configLoad k).wf = true := decide_eq_true (by omega)
  have hall : runAll s (loadEvents k ws) = _ :=
    (runAll_cons _ rfl).trans <| (runAll_cons _ ((perform_cmd hwf _).trans hr)).trans <|
      (runAll_append _ hrun).trans <| runAll_cmd rfl (exec_commit hmode)
  refine ⟨_, hall, runAll_keeps_inv hi hall, rfl, hparams, hm, hcount, herr, ?_⟩
  rw [hidx0, ← hnw, ← List.range_eq_range'] at hwords
  exact hwords

theorem keyLocations_lt {s : State} (hi : BlockInv s) (h : s.mode ≠ .off) (u : List CodeUnit) :
    ∀ l ∈ s.keyLocations u, l < s.m.toNat := by
  intro l hl
  obtain ⟨i, -, rfl⟩ := mem_keyLocations.mp hl
  obtain ⟨-, hm, -⟩ := (geometryOk_iff s).mp (geometry_of_ne_off hi h)
  exact location_lt _ _ (by omega) i

/-- Filters of one size with the same visible words answer alike whether a key may be in them (43 R113). -/
theorem SameFilter.hit_eq {s t : State} (h : SameFilter s t) (hi : BlockInv s) (hm : s.mode = .ready)
    (hw : ∀ w < s.nw, t.buckets.read w = s.buckets.read w) (u : List CodeUnit) :
    parallelTest t.buckets (t.keyLocations u) = parallelTest s.buckets (s.keyLocations u) := by
  have hon := (SameFilter.refl hi hm).ne_off
  have hsees : Hides s t.buckets s.inbox := ⟨rfl, fun w hlt => (hw w hlt).symm⟩
  rw [h.keyLocations, hsees.parallelTest_eq (geometry_of_ne_off hi hon) (keyLocations_lt hi hon u)]

/-- Settles O54: the dump returned the visible words of F, the load makes them those of G, and TEST sees nothing else. -/
theorem serializationRoundTrip : Obligations.SerializationRoundTrip := by
  intro f f' g ws hf hm hg hp hdump hws
  have hon := (SameFilter.refl hf hm).ne_off
  obtain ⟨h32, hlow, hhigh, hk⟩ := (geometryOk_iff f).mp (geometry_of_ne_off hf hon)
  obtain rfl : ws = f.visibleWords := by
    rw [runAll_dump hf hon, Host.Outcome.next.injEq] at hdump
    rw [← hdump] at hws
    exact (List.append_cancel_left hws).symm
  have hlen : f.visibleWords.length = f.m.toNat / 32 := by simp [State.visibleWords, State.nw]
  obtain ⟨h, hload, hih, hready, hparams, hsize, hcount, herr, hwords⟩ :=
    runAll_loadFilter hg (k := f.k.toNat) (ws := f.visibleWords) (hp ▸ hk) (by omega) (by rw [hp]; omega)
  rw [hlen, Nat.mul_div_cancel' (Nat.dvd_of_mod_eq_zero h32), BitVec.ofNat_toNat, BitVec.setWidth_eq] at hsize
  rw [BitVec.ofNat_toNat, BitVec.setWidth_eq] at hcount
  have hread : ∀ w < f.nw, h.buckets.read w = f.buckets.read w := by
    rw [State.visibleWords, State.visibleWords, State.nw, State.nw, hsize, List.map_inj_left] at hwords
    exact fun w hw => hwords w (List.mem_range.mpr hw)
  have hsame : SameFilter f h := ⟨hih, hready, hparams.trans hp, hsize, hcount⟩
  refine ⟨h, hload, hready, hsize, hcount, herr, hread, fun u => ?_⟩
  obtain ⟨a, ha, hahit⟩ := runAll_testKey hf hm u
  obtain ⟨b, hb, hbhit⟩ := runAll_testKey hih hready u
  exact ⟨a, b, ha, hb, by rw [hahit, hbhit, hsame.hit_eq hf hm hread]⟩

end Sys2Proof.Machine

namespace Sys2Proof.Machine

/-! ### The first failing check of a command (30 R75, R76, 60 R130, R133) -/

/-- The check of a command that its word cannot settle: the mode it asks for, or the configuration it is given (60 R130). -/
def execError (i : Instr) (s : State) : Option ErrCode :=
  match i with
  | .nop | .keyStart | .keyUnit _ | .hash => none
  | .add | .test => if s.mode ≠ .ready then some .badMode else none
  | .popcount => if s.mode = .off then some .badMode else none
  | .configNew k | .configLoad k => if ¬ s.configAccepts k then some .badConfig else none
  | .commit => if s.mode ≠ .load then some .badMode else none

/-- A word that is no command fails the check its decode error names (30 R75, R76). -/
theorem firstError_commandChecks_of_error {v : Word} {e : DecodeError} (h : decode v = .error e) (s : State) :
    firstError (commandChecks v s) = some (decodeErrCode e) := by
  cases e with
  | illegalOp =>
    have hop := (decode_illegalOp_iff v).mp h
    simp [commandChecks, firstError, hop, decodeErrCode]
  | rsvdField =>
    obtain ⟨hop, hz⟩ := (decode_rsvdField_iff v).mp h
    simp [commandChecks, firstError, Nat.not_le.mpr hop, hz, decodeErrCode]

/-- The configuration check of 44 R121 is the table's (60 R130). -/
theorem not_configAccepts_iff (n : Nat) (s : State) : ¬ s.configAccepts n = true ↔
    s.cap = 0#32 ∨ 32 * s.params.wMax < s.cap.toNat ∨ s.params.kMax < n := by
  simp only [configAccepts_iff, not_and_or, not_not, not_le]

/-- A format-C command carries its word's count (30 R73). -/
theorem kField_of_decode {v : Word} {i : Instr} (h : decode v = .ok i) {n : Nat} (hi : i = .configNew n ∨ i = .configLoad n) :
    kField v = n := by
  obtain ⟨hc, -⟩ := (decode_ok_iff v i).mp h
  rw [opField_of_decode h] at hc
  rcases hi with rfl | rfl <;> simpa [commandOf, Instr.opcode] using hc

/-- A word that is a command fails at most that command's own check. -/
theorem firstError_commandChecks_of_ok {v : Word} {i : Instr} (h : decode v = .ok i) (s : State) :
    firstError (commandChecks v s) = execError i s := by
  have hop : ¬ 10 ≤ opField v := fun hx => by
    rw [(decode_illegalOp_iff v).mpr hx] at h
    cases h
  obtain ⟨-, hz⟩ := (decode_ok_iff v i).mp h
  rw [commandChecks, firstError_cons, if_neg (by simpa using hop), firstError_cons, if_neg (by simpa using hz),
    opField_of_decode h]
  cases i with
  | nop | keyStart | keyUnit | hash | add | test | popcount | commit => simp [firstError, execError, Instr.opcode]
  | configNew n | configLoad n =>
    have hk : kField v = n := kField_of_decode h (by simp)
    simp [firstError, execError, Instr.opcode, hk, ← not_configAccepts_iff]

/-! ### The first failing check of an access (60 R133) -/

/-- An access outside the register map fails one of the two checks of its offset, whatever checks follow (20 R49, R50). -/
theorem firstError_unmapped {o : BitVec 8} (h : regAt o = none) (l : List (Bool × ErrCode)) :
    firstError ((decide (o.toNat % 4 ≠ 0), .access) :: (decide (0x44 ≤ o.toNat), .access) :: l) = some .access := by
  have hbad : o.toNat % 4 ≠ 0 ∨ 0x44 ≤ o.toNat := by
    by_contra hx
    obtain ⟨r, hr⟩ := regAt_isSome (o := o) (by omega) (by omega)
    rw [h] at hr
    cases hr
  rcases hbad with hb | hb <;> simp [firstError, hb]

/-- The offset of a register passes both checks of offsets. -/
theorem firstError_mapped (r : Reg) (l : List (Bool × ErrCode)) :
    firstError ((decide ((regOffset r).toNat % 4 ≠ 0), .access) :: (decide (0x44 ≤ (regOffset r).toNat), .access) :: l) =
      firstError l := by
  cases r <;> rfl

theorem eventError_read_value {r : Reg} (h : r ≠ .arrayData) (s : State) : eventError (.read (regOffset r)) s = none := by
  have hne : regOffset r ≠ 0x34#8 := by cases r <;> first | decide | exact absurd rfl h
  refine (firstError_mapped r _).trans ?_
  simp [firstError, hne]

theorem eventError_read_arrayData (s : State) : eventError (.read (regOffset .arrayData)) s =
    if s.mode = .off then some .badMode else if s.nw ≤ s.aidx.toNat then some .indexRange else none := by
  refine (firstError_mapped .arrayData _).trans ?_
  simp [firstError, regOffset]

theorem eventError_write_arrayData (v : Word) (s : State) : eventError (.write (regOffset .arrayData) v) s =
    if s.mode = .off then some .badMode else if s.mode = .ready then some .readOnly
      else if s.nw ≤ s.aidx.toNat then some .indexRange else none := by
  refine (firstError_mapped .arrayData _).trans ?_
  simp [firstError, regOffset]

theorem eventError_write_cmd (v : Word) (s : State) :
    eventError (.write (regOffset .cmd) v) s = firstError (commandChecks v s) := by
  refine (firstError_mapped .cmd _).trans ?_
  simp [firstError, regOffset]

/-! ### What an access answers, by its first failing check (60 R129 to R133) -/

/-- What a move answers when its first failing check is the given one: the refusal, and that alone, for a failing check; when none
fails, a state with the same error record, the acknowledgement, the reset, or the stop of a broken configuration (log 9). -/
inductive AccessOutcome (s : State) : HostEvent → Option ErrCode → Result → Prop where
  | refused (e : HostEvent) (c : ErrCode) : AccessOutcome s e (some c) (.next (refusedBy e c s))
  | accepted (e : HostEvent) {t : State} (h : t.errorRecord = s.errorRecord) : AccessOutcome s e none (.next t)
  | acknowledged (v : Word) : AccessOutcome s (.write 0x0C#8 v) none (.next (s.ackErrors v))
  | reset (cs : List (Nat × Word)) : AccessOutcome s (.reset cs) none (.next (s.applyReset cs))
  | fault (e : HostEvent) (r : Fault) : AccessOutcome s e none (.fault r)

namespace AccessOutcome

variable {s t : State} {e : HostEvent} {err : Option ErrCode} {r : Result}

/-- A check that is made before the others comes before them in the order of the errors too. -/
theorem check {p : Prop} [Decidable p] {c : ErrCode} (h : AccessOutcome s e err r) :
    AccessOutcome s e (if p then some c else err) (if p then .next (refusedBy e c s) else r) := by
  split
  · exact refused e c
  · exact h

theorem onFilter (h : t.errorRecord = s.errorRecord) : AccessOutcome s e none (s.onFilter t) := by
  unfold State.onFilter
  split
  · exact accepted e h
  · exact fault e _

theorem configure (o : BitVec 8) (v : Word) (n : Nat) (md : OpMode) :
    AccessOutcome s (.write o v) (if ¬ s.configAccepts n then some .badConfig else none) (s.configure n md) := by
  by_cases h : s.configAccepts n = true
  · rw [if_neg (not_not.mpr h), configure_accepted h]
    exact accepted _ rfl
  · rw [if_pos h, configure_refused h]
    exact refused (.write o v) .badConfig

/-- A command makes its own check before any effect (60 R132). -/
theorem exec (o : BitVec 8) (v : Word) (i : Instr) : AccessOutcome s (.write o v) (execError i s) (exec i s) := by
  cases i with
  | nop | keyStart | keyUnit => exact accepted _ rfl
  | hash =>
    change AccessOutcome s _ none (if _ then _ else _)
    split
    · exact onFilter rfl
    · exact accepted _ rfl
  | add | test | popcount => exact check (onFilter rfl)
  | configNew n | configLoad n => exact configure o v n _
  | commit => exact check (accepted _ rfl)

theorem runCommand (o : BitVec 8) (v : Word) :
    AccessOutcome s (.write o v) (firstError (commandChecks v s)) (runCommand v s) := by
  cases h : decode v with
  | error e =>
    rw [firstError_commandChecks_of_error h, runCommand_of_error h]
    exact refused (.write o v) _
  | ok i =>
    rw [firstError_commandChecks_of_ok h, runCommand_of_ok h]
    exact exec o v i

theorem read (o : BitVec 8) : AccessOutcome s (.read o) (eventError (.read o) s) (hostRead o s) := by
  cases hr : regAt o with
  | none =>
    rw [hostRead, hr, eventError, eventChecks, firstError_unmapped hr]
    exact refused (.read o) .access
  | some r =>
    obtain rfl := regOffset_of_regAt hr
    by_cases hd : r = .arrayData
    · subst hd
      rw [eventError_read_arrayData]
      exact check (check (onFilter rfl))
    · rw [eventError_read_value hd, hostRead_reg hd]
      exact accepted _ rfl

theorem write (o : BitVec 8) (v : Word) : AccessOutcome s (.write o v) (eventError (.write o v) s) (hostWrite o v s) := by
  cases hr : regAt o with
  | none =>
    rw [hostWrite, hr, eventError, eventChecks, List.cons_append, List.cons_append, firstError_unmapped hr]
    exact refused (.write o v) .access
  | some r =>
    obtain rfl := regOffset_of_regAt hr
    rw [hostWrite, hr]
    cases r with
    | cmd =>
      rw [eventError_write_cmd]
      exact runCommand _ v
    | arrayData =>
      rw [eventError_write_arrayData]
      exact check (check (check (onFilter rfl)))
    | status => exact acknowledged v
    | _ => exact accepted _ rfl

/-- Every move answers as its first failing check says, from every state (60 R133). -/
theorem perform (e : HostEvent) (s : State) : AccessOutcome s e (eventError e s) (perform e s) := by
  cases e with
  | read o => exact read o
  | write o v => exact write o v
  | reset cs => exact reset cs

end AccessOutcome

/-- Settles O15: the outcome of an access with a failing check is the refusal. -/
theorem refusedAccessIsPrecise : Obligations.RefusedAccessIsPrecise := by
  intro e s c h
  have ho := AccessOutcome.perform e s
  rw [h] at ho
  generalize perform e s = r at ho ⊢
  cases ho with
  | refused => rfl

/-- Settles O16: from the invariant no access stops, so what is left is an unchanged error record. -/
theorem acceptedAccessRecordsNoError : Obligations.AcceptedAccessRecordsNoError := by
  intro e s hi h hstatus hreset
  obtain ⟨t, ht⟩ := perform_completes hi e
  have ho := AccessOutcome.perform e s
  rw [h, ht] at ho
  cases ho with
  | accepted _ hrec => exact ⟨t, ht, hrec⟩
  | acknowledged v => exact absurd rfl (hstatus v)
  | reset cs => exact absurd rfl (hreset cs)

/-- `t` shows an error that `s` does not: ERR or ERR_MULTI newly set, or another code (60 R131). -/
def showsNewError (s t : State) : Prop :=
  (s.err = false ∧ t.err = true) ∨ (s.errMulti = false ∧ t.errMulti = true) ∨
    (t.errCode ≠ s.errCode ∧ t.errCode ≠ .none)

theorem not_showsNewError_of_errorRecord_eq {s t : State} (h : t.errorRecord = s.errorRecord) : ¬ showsNewError s t := by
  simp only [State.errorRecord, Prod.mk.injEq] at h
  obtain ⟨he, hm, hc⟩ := h
  simp [showsNewError, he, hm, hc]

/-- An acknowledgement only clears (10 R28). -/
theorem not_showsNewError_ackErrors (s : State) (v : Word) : ¬ showsNewError s (s.ackErrors v) := by
  simp only [showsNewError, State.ackErrors_err, State.ackErrors_errMulti, State.ackErrors_errCode]
  cases v.getLsbD 8 <;> cases v.getLsbD 9 <;> simp

/-- A reset clears the whole record (70 R146). -/
theorem not_showsNewError_applyReset (s : State) (cs : List (Nat × Word)) : ¬ showsNewError s (s.applyReset cs) := by
  simp [showsNewError, State.applyReset, State.resetWith]

/-- Settles O14: `raiseError` as its definition says; and of the outcomes of an access only the refusal shows a new error. -/
theorem errorRecording : Obligations.ErrorRecording := by
  refine ⟨fun s c => ⟨fun h => ?_, fun h => ?_, rfl⟩, fun e s t _ ht (hnew : showsNewError s t) => ?_⟩
  · simp [State.raiseError, h]
  · simp [State.raiseError, h]
  · have ho := AccessOutcome.perform e s
    rw [ht] at ho
    generalize eventError e s = err at ho ⊢
    cases ho with
    | refused _ c => exact ⟨c, rfl, rfl⟩
    | accepted _ hrec => exact absurd hnew (not_showsNewError_of_errorRecord_eq hrec)
    | acknowledged v => exact absurd hnew (not_showsNewError_ackErrors s v)
    | reset cs => exact absurd hnew (not_showsNewError_applyReset s cs)

end Sys2Proof.Machine

namespace Sys2Proof.Machine

/-! ### Runs from states that differ only in what no access can see (10 R23, 70 R147) -/

theorem core_run_zero (s : State) : Sys2Proof.core.run 0 s = .next s := rfl

/-- The next state of a step meets the invariant when the step starts from a state that does. -/
theorem step_keeps_inv {s t : State} (hs : BlockInv s) (h : step s = .next t) : BlockInv t := by
  obtain ⟨u, hu, hui⟩ := everyStepKeepsInvariant s hs
  rw [h, Host.Outcome.next.injEq] at hu
  exact hu ▸ hui

/-- As many steps from each of two states that agree but for what no access can see end in two such states. -/
theorem sameVisible_of_core_run {n : Nat} {s t s' t' : State} (hs : BlockInv s) (ht : BlockInv t)
    (hst : sameVisible s t) (hrs : Sys2Proof.core.run n s = .next s') (hrt : Sys2Proof.core.run n t = .next t') :
    sameVisible s' t' := by
  induction n generalizing s t with
  | zero =>
    rw [core_run_zero] at hrs hrt
    cases hrs
    cases hrt
    exact hst
  | succ n ih =>
    obtain ⟨s₁, hs₁, hrs⟩ := core_run_succ_next hrs
    obtain ⟨t₁, ht₁, hrt⟩ := core_run_succ_next hrt
    obtain ⟨u, hu, hsu⟩ := invisibleWordsAreUnobservable s t s₁ hs ht hst hs₁
    rw [ht₁, Host.Outcome.next.injEq] at hu
    exact ih (step_keeps_inv hs hs₁) (step_keeps_inv ht ht₁) (hu ▸ hsu) hrs hrt

/-- What the host has been answered is no part of what states that agree may differ in. -/
theorem outbox_eq_of_sameVisible {s t : State} (h : sameVisible s t) : s.outbox = t.outbox :=
  have heq := congrArg State.outbox h.1
  heq

/-! ### The state after reset (70 R145 to R147) -/

/-- Settles O9: what a reset leaves in the array is in canonical form and within the storage, and so is the empty array. -/
theorem resetMeetsInvariant : Obligations.ResetMeetsInvariant := by
  refine ⟨blockInv_resetWith (by decide) Memory.wf_nil (by simp), fun p cs hp => ?_⟩
  obtain ⟨hwf, hlt⟩ := Memory.ofContents_wf p.wMax cs
  exact blockInv_resetWith hp hwf hlt

/-- After reset no word is visible, so blocks that face moves equal up to resets' contents agree whatever their arrays hold. -/
theorem sameVisible_resetWith (p : Config.Params) (a b : Memory) {es fs : List HostEvent}
    (h : es.map eraseContents = fs.map eraseContents) :
    sameVisible ((State.resetWith p a).facing es) ((State.resetWith p b).facing fs) := by
  have hnw : ((State.resetWith p a).facing es).nw = 0 := by simp [State.nw, State.facing, State.resetWith]
  refine sameVisible_withHidden (s := (State.resetWith p a).facing es) ⟨h, fun w hw => ?_⟩
  rw [hnw] at hw
  exact absurd hw (Nat.not_lt_zero w)

/-- Settles O12: the two blocks agree at the start, equally many steps keep them so, and the answers are part of that. -/
theorem resetContentsAreUnobservable : Obligations.ResetContentsAreUnobservable := by
  intro p cs ds es fs s t hp hesfs hs ht
  have hlen : es.length = fs.length := by simpa using congrArg List.length hesfs
  have hinv (cs : List (Nat × Word)) := resetMeetsInvariant.2 p cs hp
  unfold runAll at hs ht
  rw [hlen] at hs
  exact outbox_eq_of_sameVisible <|
    sameVisible_of_core_run ((hinv cs).facing es) ((hinv ds).facing fs) (sameVisible_resetWith p _ _ hesfs) hs ht

/-- The reset value of lane A is init(SEED_A) (40 R84). -/
theorem hashInit_seedA : hashInit seedA = 0x811C9DC5#32 := by decide

/-- The reset value of lane B is init(SEED_B) (40 R84). -/
theorem hashInit_seedB : hashInit seedB = 0xDCE8AC8C#32 := by decide

/-- A reset can leave any word v at any word index w of the storage: contents that list this pair alone (70 R147). -/
theorem read_ofContents_singleton {wMax w : Nat} (v : Word) (hw : w < wMax) :
    (Memory.ofContents wMax [(w, v)]).read w = v := by
  rw [Memory.ofContents, List.foldl_cons, List.foldl_nil, if_pos hw]
  exact Memory.read_write_same Memory.wf_nil w v

/-- Settles O10: the fields are those of `State.resetWith`, and a reset can leave any word alone in the array. -/
theorem resetValues : Obligations.ResetValues := by
  refine ⟨fun s cs => ⟨s.applyReset cs, rfl, ?_⟩, fun s w v hw => ⟨[(w, v)], _, rfl, read_ofContents_singleton v hw⟩⟩
  simp [State.applyReset, State.resetWith, hashInit_seedA, hashInit_seedB]

end Sys2Proof.Machine
